-- ==== Sys2Proof/Word.lean ====
section
/-! DEFINITION. The two widths of the spec: the byte `u8` and the 32-bit word `u32` (00_scope.md section 6). -/

namespace Sys2Proof

/-- A `u8`: a table entry, an index, a byte of the buffer memory (00_scope.md section 6, 10_state.md R10, R11).
Its `+` is the spec's `+8` (addition modulo 256) and its `^^^` the spec's `xor` (R73, R92). -/
abbrev Byte := BitVec 8

/-- A `u32`: a host-visible register, a command word (00_scope.md section 6, R6 `XLEN`, `CMDW`). -/
abbrev Word := BitVec 32

end Sys2Proof
end

