-- ==== Sys2Proof/Syntax.lean ====
section
/-! DEFINITION. The commands: one constructor for each row of spec/opcode_table.json. -/

namespace Sys2Proof

/-- The command set (30_encoding.md R52). A command carries no operand: all of them come from the operand
registers as they stand at the CMD write (R51, R53). -/
inductive Instr where
  /-- INIT, command word 0x00000001: schedule the key at `KEYADDR`, `KEYLEN` (40_key_schedule.md R70). -/
  | init
  /-- XFORM, command word 0x00000002: transform `LEN` bytes from `SRC` to `DST` (41_keystream.md R80). -/
  | xform
  /-- CLEAR, command word 0x00000003: zero the Cipher State (42_clear_and_host_access.md R100). -/
  | clear
  deriving DecidableEq, Repr

end Sys2Proof
end

