-- ==== Sys2Proof/Machine/Transaction.lean ====
section
/-! DEFINITION. What the host can do: registers by name, host transactions, host events, and the spec's assembler lines. -/

namespace Sys2Proof

/-- The eight host-visible registers, `ra` = 0 to 7 in this order (10_state.md R22). -/
inductive Reg where
  | cmd | status | errinfo | keyaddr | keylen | src | dst | len
  deriving DecidableEq, Repr

/-- A host transaction, format T (30_encoding.md R50). -/
inductive HostTransaction where
  /-- `HostWrite(ra, v)`. -/
  | write (r : Reg) (v : Word)
  /-- `HostRead(ra)`. -/
  | read (r : Reg)
  /-- `Reset`, a separate input of the block and no register access. -/
  | reset
  deriving DecidableEq, Repr

/-- What the host does next: a host transaction, or a write of its own to the buffer memory between two commands
(00_scope.md R7, 70_reset_and_hazards.md R142 row 'access buffer memory'). How the host reaches the memory is outside
the spec; what the write does is 20_memory.md R31. -/
inductive HostEvent where
  | transaction (t : HostTransaction)
  | memoryWrite (addr : Word) (v : Byte)
  deriving DecidableEq, Repr

/-- A line of the spec's assembler notation: the primitive lines of 30_encoding.md R56, then the
pseudo-instructions of R57. -/
inductive AsmLine where
  | wr (r : Reg) (v : Word)
  | rd (r : Reg)
  | reset
  | bareInit
  | bareXform
  | bareClear
  | init (keyaddr k : Word)
  | xform (src dst len : Word)
  | xformInPlace (buf len : Word)
  | encrypt (src dst len : Word)
  | decrypt (src dst len : Word)
  deriving DecidableEq, Repr

end Sys2Proof
end

