-- ==== Sys2Proof/WellFormed.lean ====
section
/-! DEFINITION. What makes a command, a command word and a packed transaction well formed. -/

namespace Sys2Proof

/-- A command has no field (30_encoding.md R51: no register number, no immediate, no mode bit), so there is nothing
in one that could be out of range. -/
def Instr.wf : Instr → Bool
  | .init => true
  | .xform => true
  | .clear => true

/-- Field `zero` of a command word, bits 31:8 (30_encoding.md R51). -/
def commandZero (w : Word) : BitVec 24 := w.extractLsb' 8 24

/-- Field `op` of a command word, bits 7:0 (30_encoding.md R51). -/
def commandOp (w : Word) : BitVec 8 := w.extractLsb' 0 8

/-- A command word the map of 30_encoding.md R52 defines: `zero` is 0 (R51) and `op` is one of the three codes; every
other word is illegal (R54). -/
def commandWordWf (w : Word) : Bool :=
  commandZero w == 0 && (commandOp w == 1 || commandOp w == 2 || commandOp w == 3)

/-- A packed register access as a listing writes it: `wdata` is 0 in a read (30_encoding.md R50, the table's last row). -/
def packedWf (p : BitVec 36) : Bool :=
  p.getLsbD 35 || p.extractLsb' 0 32 == 0

end Sys2Proof
end

