-- ==== Sys2Proof/Decode.lean ====
section
/-! DEFINITION. The command decoder and encoder, the packed form of a register access, and the assembler's expansions. -/

namespace Sys2Proof

/-- One row of the opcode map: the command and its `match` and `mask` (30_encoding.md R52). -/
structure OpcodeRow where
  instr : Instr
  matchWord : Word
  mask : Word
  deriving DecidableEq, Repr

/-- The opcode map of 30_encoding.md R52. -/
def opcodeRows : List OpcodeRow :=
  [⟨.init, 0x00000001, 0xFFFFFFFF⟩,
   ⟨.xform, 0x00000002, 0xFFFFFFFF⟩,
   ⟨.clear, 0x00000003, 0xFFFFFFFF⟩]

/-- Why a word is no command. -/
inductive DecodeError where
  /-- The word is none of the three of 30_encoding.md R52; the block answers `ILLEGAL` with `ERRINFO` = the word (R54). -/
  | illegal (w : Word)
  deriving DecidableEq, Repr

/-- The command a word selects: the row with `(w and mask) = match` (30_encoding.md R52); the same in every state (R55). -/
def decode (w : Word) : Except DecodeError Instr :=
  match opcodeRows.find? (fun row => w &&& row.mask == row.matchWord) with
  | some row => .ok row.instr
  | none => .error (.illegal w)

/-- The decoder on a word numbered as spec/opcode_table.json numbers it. A command is one 32-bit word (30_encoding.md R55);
a number that needs more bits is none (DESIGN CHOICE, safe, log entry 9). -/
def decodeTableWord (nbits w : Nat) : Option Instr :=
  if w % 2 ^ nbits < 2 ^ 32 then
    match decode (BitVec.ofNat 32 (w % 2 ^ nbits)) with
    | .ok i => some i
    | .error _ => none
  else none

/-- Field `op` of a command (30_encoding.md R51, R52). -/
def opcode : Instr → BitVec 8
  | .init => 0x01
  | .xform => 0x02
  | .clear => 0x03

/-- The command word: `zero` in bits 31:8, `op` in bits 7:0 (30_encoding.md R51). -/
def encode (i : Instr) : Word := (0 : BitVec 24) ++ opcode i

/-- The 3-bit word index `ra` of a register (10_state.md R22, 30_encoding.md R56). -/
def Reg.index : Reg → BitVec 3
  | .cmd => 0
  | .status => 1
  | .errinfo => 2
  | .keyaddr => 3
  | .keylen => 4
  | .src => 5
  | .dst => 6
  | .len => 7

/-- The register a word index selects; every index is defined (10_state.md R22). -/
def Reg.ofIndex (ra : BitVec 3) : Reg :=
  if ra = 0 then .cmd
  else if ra = 1 then .status
  else if ra = 2 then .errinfo
  else if ra = 3 then .keyaddr
  else if ra = 4 then .keylen
  else if ra = 5 then .src
  else if ra = 6 then .dst
  else .len

/-- The packed form of a register access, `we` in bit 35, `ra` in bits 34:32, `wdata` in bits 31:0; `Reset` has none
(30_encoding.md R50, R56). -/
def encodePacked : HostTransaction → Option (BitVec 36)
  | .write r v => some ((1 : BitVec 1) ++ (r.index ++ v))
  | .read r => some ((0 : BitVec 1) ++ (r.index ++ (0 : BitVec 32)))
  | .reset => none

/-- The register access a packed number stands for. Total: no transaction is malformed (30_encoding.md R50).
DESIGN CHOICE, safe, log entry 5: `wdata` of a read, which a listing writes as 0, is ignored. -/
def decodePacked (p : BitVec 36) : HostTransaction :=
  if p.getLsbD 35 then .write (Reg.ofIndex (p.extractLsb' 32 3)) (p.extractLsb' 0 32)
  else .read (Reg.ofIndex (p.extractLsb' 32 3))

/-- The expansion of `XFORM <src>, <dst>, <len>` (30_encoding.md R57, second row). -/
def expandXform (src dst len : Word) : List HostTransaction :=
  [.write .src src, .write .dst dst, .write .len len, .write .cmd (encode .xform)]

/-- The host transactions a line stands for, in order (30_encoding.md R56, R57). -/
def expandLine : AsmLine → List HostTransaction
  | .wr r v => [.write r v]
  | .rd r => [.read r]
  | .reset => [.reset]
  | .bareInit => [.write .cmd (encode .init)]
  | .bareXform => [.write .cmd (encode .xform)]
  | .bareClear => [.write .cmd (encode .clear)]
  | .init keyaddr k => [.write .keyaddr keyaddr, .write .keylen k, .write .cmd (encode .init)]
  | .xform src dst len => expandXform src dst len
  | .xformInPlace buf len => expandXform buf buf len
  | .encrypt src dst len => expandXform src dst len
  | .decrypt src dst len => expandXform src dst len

end Sys2Proof
end

