-- ==== Sys2Proof/Config.lean ====
section
/-! DEFINITION. The parameters the spec fixes (00_scope.md R6), and what an unlisted byte of memory reads as.
The spec leaves no value, order or election open (R9), so there is no free value here. -/

namespace Sys2Proof

/-- `KMIN`: the least legal key length in bytes (00_scope.md R6). -/
def Config.keyMin : Nat := 1

/-- `KMAX`: the greatest legal key length in bytes (00_scope.md R6). -/
def Config.keyMax : Nat := 256

/-- `N`, as the number of rounds of the key schedule: one round for each table entry (00_scope.md R6, R70). -/
def Config.rounds : Nat := 256

/-- `2^AW`: how many byte addresses the buffer memory has (00_scope.md R6, 20_memory.md R31). -/
def Config.memorySize : Nat := 2 ^ 32

/-- What an address that `Memory` does not list holds. DESIGN CHOICE, unsafe, log entry 1: 20_memory.md R31 leaves
the initial contents to the memory agent (93_implementation_defined.md U16: quantify over them). With this one
filler every total map from the 2^32 addresses to bytes is exactly one canonical `Memory`, so a statement about
every state is a statement about every initial content; only `State.reset` itself fixes the content. -/
def Config.unlistedByte : Byte := 0

end Sys2Proof
end

