-- ==== Sys2Proof/Machine/State.lean ====
section
/-! DEFINITION. The state of the block, of the buffer memory and of the host, as plain data; its value at reset; why a step can stop. -/

namespace Sys2Proof.Machine

/-- The permutation table `S`: 256 entries of exactly 8 bits (10_state.md R10). -/
abbrev Table := Vector Byte 256

/-- The Cipher State: the table and the two running indices (00_scope.md R3, 10_state.md R10, R11). -/
structure Cipher where
  /-- `S`, the source's `permutation`. -/
  table : Table
  /-- The source's `index_i`. -/
  i : Byte
  /-- The source's `index_j`; not the accumulator of the key schedule (10_state.md R19, 90_conflicts.md C5). -/
  j : Byte
  deriving DecidableEq, Repr

/-- The five 32-bit operand registers (10_state.md R16). No command writes one. -/
structure OperandRegs where
  keyAddr : Word
  keyLen : Word
  src : Word
  dst : Word
  len : Word
  deriving DecidableEq, Repr

/-- The error codes of 60_exceptions.md R111; exactly six, since 6 to 15 are never produced
(93_implementation_defined.md U10). -/
inductive ErrCode where
  | ok | keysize | overlap | notkeyed | illegal | range
  deriving DecidableEq, Repr

/-- The buffer memory (20_memory.md R31): the bytes that differ from `Config.unlistedByte`, as (address, byte) cells in
strictly rising order of address. `Memory.wf` states that form. -/
abbrev Memory := List Host.Cell

/-- One byte access at the memory port (20_memory.md R32, R33). -/
inductive Access where
  /-- `MemRead(addr, 1)`. -/
  | read (addr : Nat)
  /-- `MemWrite(addr, 1, v)`. -/
  | write (addr : Nat) (v : Byte)
  deriving DecidableEq, Repr

/-- The whole state between two host transactions: the block, the buffer memory, the host. The block has no other
state (10_state.md R17, R18, R19, R26). -/
structure State where
  /-- `S`, `i`, `j` (R10, R11). -/
  cipher : Cipher
  /-- `STATUS.KEYED` (R12). -/
  keyed : Bool
  /-- `STATUS.FATAL`, sticky (R13). -/
  fatal : Bool
  /-- `STATUS.ERR` (R14). -/
  err : ErrCode
  /-- `ERRINFO` (R15). -/
  errInfo : Word
  /-- `KEYADDR`, `KEYLEN`, `SRC`, `DST`, `LEN` (R16). -/
  regs : OperandRegs
  /-- The memory agent's state: the contents of the buffer memory (20_memory.md R31). -/
  mem : Memory
  /-- The host agent's: what it is going to do, in order (00_scope.md R7, R8). The model's own field, log entry 2. -/
  inbox : List HostEvent
  /-- The host agent's: the values its reads have returned so far, oldest first (70_reset_and_hazards.md R143).
  The model's own field, log entry 2. -/
  replies : List Word
  deriving DecidableEq, Repr

/-- Why a step stops with a fault. The spec's own 'fatal fault' is no such stop: it is a next state with
`FATAL` = 1 (60_exceptions.md R114). -/
inductive Fault where
  /-- Raised by `memRead` and `memWrite` for an address at or above 2^32, which no buffer memory has (20_memory.md R32, R33).
  DESIGN CHOICE, safe, log entry 3: the machine stops where the spec gives no access; the range test of R37 stands before
  every access, so no command raises it. -/
  | noSuchAddress (addr : Nat)
  deriving DecidableEq, Repr

/-- Why an instruction has no meaning. The spec's own 'refused' is no such stop: it is a next state with the error code
recorded (60_exceptions.md R113). -/
inductive Refusal where
  /-- Raised by an arm of `exec` whose instruction has no meaning yet; no arm is so now. Safe: the machine stops. -/
  | notModelled (mnemonic : String)
  deriving DecidableEq, Repr

/-- The zeroed Cipher State: every entry 0, both indices 0 (10_state.md R21, R24). -/
def Cipher.zero : Cipher := ⟨Vector.replicate 256 0, 0, 0⟩

/-- The state right after reset, over a buffer memory with contents `m` (10_state.md R24: the memory is not the block's state and
reset does not change it). The host has nothing waiting and has read nothing. -/
def State.resetOver (m : Memory) : State where
  cipher := Cipher.zero
  keyed := false
  fatal := false
  err := .ok
  errInfo := 0
  regs := ⟨0, 0, 0, 0, 0⟩
  mem := m
  inbox := []
  replies := []

/-- The machine right after reset (10_state.md R24), with nothing listed in memory. -/
def State.reset : State := State.resetOver []

end Sys2Proof.Machine
end

