-- ==== Sys2Proof/Machine/Flags.lean ====
section
/-! DEFINITION. The status word. There are no arithmetic condition codes (10_state.md section 2). -/

namespace Sys2Proof.Machine

/-- The value of `ERR`, STATUS bits 7:4 (60_exceptions.md R111). -/
def ErrCode.code : ErrCode → BitVec 4
  | .ok => 0
  | .keysize => 1
  | .overlap => 2
  | .notkeyed => 3
  | .illegal => 4
  | .range => 5

/-- STATUS, field by field: bits 31:8 and 3:2 read as 0, `ERR` in 7:4, `FATAL` in 1, `KEYED` in 0 (10_state.md R23). -/
def statusWord (s : State) : Word :=
  (0 : BitVec 24) ++ (s.err.code ++ ((0 : BitVec 2) ++ (BitVec.ofBool s.fatal ++ BitVec.ofBool s.keyed)))

end Sys2Proof.Machine
end

