-- ==== Sys2Proof/Machine/Operands.lean ====
section
/-! DEFINITION. The operands of the commands as natural numbers, and the tests a command makes on them. -/

namespace Sys2Proof.Machine

/-- `keyaddr`: the whole of `KEYADDR` as a natural number (30_encoding.md R53). -/
def keyaddrOf (s : State) : Nat := s.regs.keyAddr.toNat

/-- `k`: the whole of `KEYLEN` as a natural number (30_encoding.md R53). -/
def keylenOf (s : State) : Nat := s.regs.keyLen.toNat

/-- `src`: the whole of `SRC` as a natural number (30_encoding.md R53). -/
def srcOf (s : State) : Nat := s.regs.src.toNat

/-- `dst`: the whole of `DST` as a natural number (30_encoding.md R53). -/
def dstOf (s : State) : Nat := s.regs.dst.toNat

/-- `len`: the whole of `LEN` as a natural number (30_encoding.md R53). -/
def lenOf (s : State) : Nat := s.regs.len.toNat

/-- `1 <= k <= 256` (40_key_schedule.md R70). -/
def keyLengthLegal (k : Nat) : Bool := decide (Config.keyMin ≤ k) && decide (k ≤ Config.keyMax)

/-- `base + len <= 2^32` on natural numbers: the buffer does not pass the top of the address space (20_memory.md R37). -/
def inRange (base len : Nat) : Bool := decide (base + len ≤ Config.memorySize)

/-- The Overlap Guard, line by line as 41_keystream.md R83 writes it. -/
def partialOverlap (src dst len : Nat) : Bool :=
  let empty := decide (len = 0)
  let anyOverlap := !empty && decide (src ≤ dst + len - 1) && decide (dst ≤ src + len - 1)
  let exactAlias := decide (src = dst)
  anyOverlap && !exactAlias

/-- The address the key byte of round `r` is fetched from (40_key_schedule.md R72). -/
def keyByteAddr (r k keyaddr : Nat) : Nat := keyaddr + r % k

end Sys2Proof.Machine
end

