-- ==== Sys2Proof/Machine/Ops.lean ====
section
/-! DEFINITION. The named operations over memory, table and registers; how a command ends (the block's exceptions); reset. -/

namespace Sys2Proof.Machine

/-! ### The buffer memory -/

/-- The byte at an address (20_memory.md R31). -/
def Memory.byteAt : Memory → Nat → Byte
  | [], _ => Config.unlistedByte
  | c :: rest, a => if c.1 = a then c.2 else Memory.byteAt rest a

/-- Put a cell in front, unless it holds what an unlisted address holds. -/
def Memory.cons (a : Nat) (v : Byte) (m : Memory) : Memory :=
  if v = Config.unlistedByte then m else (a, v) :: m

/-- The memory with the byte at `a` replaced (20_memory.md R33), in canonical form. -/
def Memory.setByte : Memory → Nat → Byte → Memory
  | [], a, v => Memory.cons a v []
  | c :: rest, a, v =>
    if a < c.1 then Memory.cons a v (c :: rest)
    else if a = c.1 then Memory.cons a v rest
    else c :: Memory.setByte rest a v

/-- The canonical form above a bound: addresses strictly rising from `lo`, below 2^32, no cell that need not be listed. -/
def Memory.wfFrom : Nat → Memory → Bool
  | _, [] => true
  | lo, c :: rest =>
    decide (lo ≤ c.1) && decide (c.1 < Config.memorySize) && decide (c.2 ≠ Config.unlistedByte) &&
      Memory.wfFrom (c.1 + 1) rest

/-- The canonical form of a memory. -/
def Memory.wf (m : Memory) : Bool := Memory.wfFrom 0 m

/-- The memory port during one command: the memory, and the accesses made so far, oldest first (20_memory.md R39, R41).
The accesses are no state of the block; `traffic` reads them off (DESIGN CHOICE, safe, log entry 8). -/
structure Port where
  mem : Memory
  trace : List Access
  deriving DecidableEq, Repr

/-- The port as a command finds it. -/
def portOf (s : State) : Port := ⟨s.mem, []⟩

/-- `MemRead(addr, 1)`: the byte at `addr`, which must be below 2^32; the memory is unchanged (20_memory.md R32). -/
def memRead (a : Nat) (p : Port) : Except Fault (Byte × Port) :=
  if a < Config.memorySize then .ok (p.mem.byteAt a, { p with trace := p.trace ++ [.read a] })
  else .error (.noSuchAddress a)

/-- `MemWrite(addr, 1, v)`: `addr` must be below 2^32; every other byte is unchanged (20_memory.md R33). -/
def memWrite (a : Nat) (v : Byte) (p : Port) : Except Fault Port :=
  if a < Config.memorySize then .ok ⟨p.mem.setByte a v, p.trace ++ [.write a v]⟩
  else .error (.noSuchAddress a)

/-! ### The permutation table -/

/-- `S[a]` (00_scope.md section 6). -/
def Table.entry (t : Table) (a : Byte) : Byte := t[a.toNat]'a.isLt

/-- `S[a] <- v` (00_scope.md section 6). -/
def Table.put (t : Table) (a v : Byte) : Table := t.set a.toNat v a.isLt

/-- `swap(S[a], S[b])`; with `a = b` it changes nothing (00_scope.md section 6). -/
def Table.swap (t : Table) (a b : Byte) : Table := (t.put a (t.entry b)).put b (t.entry a)

/-- The identity fill: `S[m] <- m` for `m` = 0 to 255 (40_key_schedule.md R70). -/
def identityTable : Table := ⟨((List.range 256).map (BitVec.ofNat 8)).toArray, by simp⟩

/-! ### How a command ends: the block's exceptions (60_exceptions.md section 2)

There is no vector, no handler and no saved context (R117), and nothing to return from (R118): what stands for taking
an exception is the recording of a code. -/

/-- Record an outcome: `ERR <- e`, `ERRINFO <- info` (10_state.md R14, R15). -/
def recordOutcome (e : ErrCode) (info : Word) (s : State) : State := { s with err := e, errInfo := info }

/-- `refuse(E, info)`, a recoverable error: nothing but the outcome is written (60_exceptions.md R113). -/
def refuse (e : ErrCode) (info : Word) (s : State) : State := recordOutcome e info s

/-- `fatal(E, info)`: the outcome is recorded and `FATAL <- 1` (60_exceptions.md R114). -/
def fatalFault (e : ErrCode) (info : Word) (s : State) : State := { recordOutcome e info s with fatal := true }

/-- `done()`: `ERR <- OK`, `ERRINFO <- 0` (60_exceptions.md R115). -/
def done (s : State) : State := recordOutcome .ok 0 s

/-- What a command that has run gives as the outcome of a step: its state, or the memory port's fault. -/
def outcomeOf : Except Fault (State × List Access) → Host.Outcome State Fault Refusal
  | .ok r => .next r.1
  | .error f => .fault f

/-! ### The host-visible registers -/

/-- The value of a register (42_clear_and_host_access.md R101, 10_state.md R22). -/
def readRegister (r : Reg) (s : State) : Word :=
  match r with
  | .cmd => 0
  | .status => statusWord s
  | .errinfo => s.errInfo
  | .keyaddr => s.regs.keyAddr
  | .keylen => s.regs.keyLen
  | .src => s.regs.src
  | .dst => s.regs.dst
  | .len => s.regs.len

/-- A write to an operand register stores all 32 bits; STATUS and ERRINFO are read-only, and CMD stores nothing
(42_clear_and_host_access.md R102, R103, 10_state.md R17). -/
def writeRegister (r : Reg) (v : Word) (s : State) : State :=
  match r with
  | .cmd => s
  | .status => s
  | .errinfo => s
  | .keyaddr => { s with regs := { s.regs with keyAddr := v } }
  | .keylen => { s with regs := { s.regs with keyLen := v } }
  | .src => { s with regs := { s.regs with src := v } }
  | .dst => { s with regs := { s.regs with dst := v } }
  | .len => { s with regs := { s.regs with len := v } }

/-- `HostRead(ra)`: the value is returned to the host; no state of the block changes (42_clear_and_host_access.md R101). -/
def hostRead (r : Reg) (s : State) : State := { s with replies := s.replies ++ [readRegister r s] }

/-- `Reset`: every piece of the block's state takes its reset value; the buffer memory is unchanged, and what the host
has read and is going to do are the host's (70_reset_and_hazards.md R130). -/
def hostReset (s : State) : State :=
  { State.reset with mem := s.mem, inbox := s.inbox, replies := s.replies }

/-- A write of the host's own to the buffer memory (20_memory.md R31, 70_reset_and_hazards.md R142). The 32-bit address always exists. -/
def hostMemoryWrite (a : Word) (v : Byte) (s : State) : State := { s with mem := s.mem.setByte a.toNat v }

end Sys2Proof.Machine
end

