-- ==== Sys2Proof/Machine/Clear.lean ====
section
/-! DEFINITION. CLEAR (42_clear_and_host_access.md). -/

namespace Sys2Proof.Machine

/-- CLEAR with the accesses it makes, none (42_clear_and_host_access.md R100; ignored while `FATAL` = 1, 30_encoding.md R58,
log entry 6). -/
def runClear (s : State) : Except Fault (State × List Access) :=
  if s.fatal then .ok (s, [])
  else .ok (done { s with cipher := Cipher.zero, keyed := false }, [])

/-- The meaning of CLEAR (42_clear_and_host_access.md R100). -/
def execClear (s : State) : Host.Outcome State Fault Refusal := outcomeOf (runClear s)

end Sys2Proof.Machine
end

