-- ==== Sys2Proof/Machine/KeySchedule.lean ====
section
/-! DEFINITION. INIT: the key schedule (40_key_schedule.md). -/

namespace Sys2Proof.Machine

/-- The working values of the key schedule: the table, the accumulator `a` (which is not `index_j`) and the memory port
(10_state.md R19, 40_key_schedule.md R71). -/
structure Schedule where
  table : Table
  acc : Byte
  port : Port
  deriving DecidableEq, Repr

/-- `KSA_round(r, a, k, keyaddr)`: fetch `key[r mod k]`, add it and `S[r]` to the accumulator modulo 256, swap `S[r]` with the
entry at the new accumulator (40_key_schedule.md R71, R72). -/
def ksaRound (k keyaddr r : Nat) (x : Schedule) : Except Fault Schedule :=
  match memRead (keyByteAddr r k keyaddr) x.port with
  | .error f => .error f
  | .ok (kb, port) =>
    let rb : Byte := BitVec.ofNat 8 r
    let acc := x.acc + x.table.entry rb + kb
    .ok ⟨x.table.swap rb acc, acc, port⟩

/-- `n` rounds from round `r` on, in order. -/
def ksaRounds (k keyaddr : Nat) : Nat → Nat → Schedule → Except Fault Schedule
  | 0, _, x => .ok x
  | n + 1, r, x =>
    match ksaRound k keyaddr r x with
    | .error f => .error f
    | .ok y => ksaRounds k keyaddr n (r + 1) y

/-- The schedule before round 0: the identity table, accumulator 0 (40_key_schedule.md R70). TESTED, unsafe, log entry 10: the start
value is the spec's own, confirmed by the known-answer test (92_eei_decisions.md D15). -/
def scheduleStart (s : State) : Schedule := ⟨identityTable, 0, portOf s⟩

/-- INIT with the accesses it makes (40_key_schedule.md R70; the order of the tests, 60_exceptions.md R116; ignored while `FATAL` = 1,
30_encoding.md R58; DESIGN CHOICE, safe, log entry 6: the gate stands in each meaning too). -/
def runInit (s : State) : Except Fault (State × List Access) :=
  if s.fatal then .ok (s, [])
  else if !keyLengthLegal (keylenOf s) then .ok (refuse .keysize s.regs.keyLen s, [])
  else if !inRange (keyaddrOf s) (keylenOf s) then .ok (refuse .range 0 s, [])
  else
    match ksaRounds (keylenOf s) (keyaddrOf s) Config.rounds 0 (scheduleStart s) with
    | .error f => .error f
    | .ok x => .ok (done { s with cipher := ⟨x.table, 0, 0⟩, keyed := true }, x.port.trace)

/-- The meaning of INIT (40_key_schedule.md R70). -/
def execInit (s : State) : Host.Outcome State Fault Refusal := outcomeOf (runInit s)

end Sys2Proof.Machine
end

