-- ==== Sys2Proof/Machine/Keystream.lean ====
section
/-! DEFINITION. XFORM: the keystream (41_keystream.md). -/

namespace Sys2Proof.Machine

/-- `PRGA_step()`: the advanced Cipher State and the keystream byte, read after the swap (41_keystream.md R81). -/
def prgaStep (c : Cipher) : Cipher × Byte :=
  let i := c.i + 1
  let x := c.table.entry i
  let j := c.j + x
  let y := c.table.entry j
  let table := c.table.swap i j
  (⟨table, i, j⟩, table.entry (x + y))

/-- `xor_byte(sa, da, K)`: read, xor, write (41_keystream.md R82). -/
def xorByte (sa da : Nat) (key : Byte) (p : Port) : Except Fault Port :=
  match memRead sa p with
  | .error f => .error f
  | .ok (b, q) => memWrite da (b ^^^ key) q

/-- What a transform changes as it runs: the Cipher State and the memory port. -/
structure Transform where
  cipher : Cipher
  port : Port
  deriving DecidableEq, Repr

/-- The loop body of XFORM for byte `n` (41_keystream.md R80). -/
def xformByte (src dst n : Nat) (x : Transform) : Except Fault Transform :=
  match xorByte (src + n) (dst + n) (prgaStep x.cipher).2 x.port with
  | .error f => .error f
  | .ok port => .ok ⟨(prgaStep x.cipher).1, port⟩

/-- `count` bytes from byte `n` on, in order (41_keystream.md R80). -/
def xformBytes (src dst : Nat) : Nat → Nat → Transform → Except Fault Transform
  | 0, _, x => .ok x
  | count + 1, n, x =>
    match xformByte src dst n x with
    | .error f => .error f
    | .ok y => xformBytes src dst count (n + 1) y

/-- XFORM with the accesses it makes (41_keystream.md R80; the order of the tests, 60_exceptions.md R116; ignored while `FATAL` = 1,
30_encoding.md R58, log entry 6). -/
def runXform (s : State) : Except Fault (State × List Access) :=
  if s.fatal then .ok (s, [])
  else if !s.keyed then .ok (refuse .notkeyed 0 s, [])
  else if !(inRange (srcOf s) (lenOf s) && inRange (dstOf s) (lenOf s)) then .ok (refuse .range 0 s, [])
  else if partialOverlap (srcOf s) (dstOf s) (lenOf s) then .ok (fatalFault .overlap 0 s, [])
  else
    match xformBytes (srcOf s) (dstOf s) (lenOf s) 0 ⟨s.cipher, portOf s⟩ with
    | .error f => .error f
    | .ok x => .ok (done { s with cipher := x.cipher, mem := x.port.mem }, x.port.trace)

/-- The meaning of XFORM (41_keystream.md R80). -/
def execXform (s : State) : Host.Outcome State Fault Refusal := outcomeOf (runXform s)

end Sys2Proof.Machine
end

