-- ==== Sys2Proof/Machine/HostPort.lean ====
section
/-! DEFINITION. What each host transaction does, and the accesses a command makes at the memory port. -/

namespace Sys2Proof.Machine

/-- `HostWrite(0, w)`: ignored while `FATAL` = 1; otherwise the word's command runs, or the word is refused as `ILLEGAL`
(30_encoding.md R58, R54). -/
def commandWrite (w : Word) (s : State) : Host.Outcome State Fault Refusal :=
  if s.fatal then .next s
  else
    match decode w with
    | .ok i => exec i s
    | .error (.illegal word) => .next (refuse .illegal word s)

/-- `HostWrite(ra, v)`: every write is ignored while `FATAL` = 1 (60_exceptions.md R119; 42_clear_and_host_access.md R102, R103;
30_encoding.md R58). -/
def hostWrite (r : Reg) (v : Word) (s : State) : Host.Outcome State Fault Refusal :=
  match r with
  | .cmd => commandWrite v s
  | _ => if s.fatal then .next s else .next (writeRegister r v s)

/-- One host transaction (30_encoding.md R50). -/
def transact (t : HostTransaction) (s : State) : Host.Outcome State Fault Refusal :=
  match t with
  | .write r v => hostWrite r v s
  | .read r => .next (hostRead r s)
  | .reset => .next (hostReset s)

/-- One event of the host's. A write of its own to the memory reaches the memory in every state of the block, a faulted one
too: the block does nothing (70_reset_and_hazards.md R142). -/
def perform (e : HostEvent) (s : State) : Host.Outcome State Fault Refusal :=
  match e with
  | .transaction t => transact t s
  | .memoryWrite a v => .next (hostMemoryWrite a v s)

/-- What happens next: the host's next event; with none waiting the block waits, unchanged (10_state.md R24,
60_exceptions.md R117, R122). DESIGN CHOICE, safe, log entry 2: a step with nothing waiting is a step that changes nothing. -/
def nextEvent (s : State) : Host.Outcome State Fault Refusal :=
  match s.inbox with
  | [] => .next s
  | e :: rest => perform e { s with inbox := rest }

/-- The state with a write of the low `nbits` bits of `w` to CMD as the host's next event. -/
def placeCommand (s : State) (nbits w : Nat) : State :=
  { s with inbox := .transaction (.write .cmd (BitVec.ofNat 32 (w % 2 ^ nbits))) :: s.inbox }

/-- A command's run with its accesses, by command. -/
def runCommand (i : Instr) (s : State) : Except Fault (State × List Access) :=
  match i with
  | .init => runInit s
  | .xform => runXform s
  | .clear => runClear s

/-- The memory accesses a command makes from a state, in order (20_memory.md R39). DESIGN CHOICE, safe, log entry 8: they are
read off here and held nowhere. -/
def traffic (i : Instr) (s : State) : Except Fault (List Access) :=
  match runCommand i s with
  | .ok r => .ok r.2
  | .error f => .error f

end Sys2Proof.Machine
end

