-- ==== Sys2Proof/Machine/Step.lean ====
section
/-! DEFINITION. One step: one host event, atomic (00_scope.md R8). DEDUCED, unsafe, log entry 4: no other agent moves inside a step
(20_memory.md R42, 70_reset_and_hazards.md R139). -/

namespace Sys2Proof.Machine

/-- One step of the machine: the host's next event (00_scope.md R8). -/
def step (s : State) : Host.Outcome State Fault Refusal := Sys2Proof.Machine.nextEvent s

/-- `s` with a write of the command word `w` to CMD as the host's next event, which is where this block's commands come
from (20_memory.md R43). -/
def State.withFetchWord (s : State) (nbits w : Nat) : State := Sys2Proof.Machine.placeCommand s nbits w

end Sys2Proof.Machine
end

