-- ==== Sys2Proof/Reference.lean ====
section
/-! DEFINITION. The cipher as the spec's algorithm on functions, with no memory port, no addresses and no loop state: what
statements hold the commands against. -/

namespace Sys2Proof.Reference

open Sys2Proof.Machine

/-- A table as a function from index to entry. -/
abbrev Perm := Byte → Byte

/-- The exchange of two entries (00_scope.md section 6, `swap`). -/
def exchange (p : Perm) (a b : Byte) : Perm :=
  fun x => if x = a then p b else if x = b then p a else p x

/-- The key schedule after `n` rounds, for a key given by round: the table and the accumulator (40_key_schedule.md R70, R71). -/
def schedule (key : Nat → Byte) : Nat → Perm × Byte
  | 0 => (id, 0)
  | n + 1 =>
    let before := schedule key n
    let r := BitVec.ofNat 8 n
    let acc := before.2 + before.1 r + key n
    (exchange before.1 r acc, acc)

/-- The key byte of each round of a key of `k` bytes at `keyaddr` (40_key_schedule.md R72). -/
def keyOf (m : Memory) (keyaddr k : Nat) : Nat → Byte := fun r => m.byteAt (keyaddr + r % k)

/-- A Cipher State as functions. -/
structure Rc4 where
  perm : Perm
  i : Byte
  j : Byte

/-- The table that holds a function's values; irreducible, so that a comparison of two states does not unroll 256 entries. -/
@[irreducible] def tableOf (p : Perm) : Table := Vector.ofFn fun n => p (BitVec.ofNat 8 n.val)

/-- The Cipher State INIT leaves: the scheduled table, both indices 0 (40_key_schedule.md R70). -/
def scheduled (m : Memory) (keyaddr k : Nat) : Cipher := ⟨tableOf (schedule (keyOf m keyaddr k) 256).1, 0, 0⟩

/-- The functional view of a Cipher State. -/
def view (c : Cipher) : Rc4 := ⟨c.table.entry, c.i, c.j⟩

/-- The Cipher State of a functional view. -/
def cipherOf (m : Rc4) : Cipher := ⟨tableOf m.perm, m.i, m.j⟩

/-- One step of the generator (41_keystream.md R81, sub-steps 1 to 5). -/
def advance (m : Rc4) : Rc4 :=
  let i := m.i + 1
  let j := m.j + m.perm i
  ⟨exchange m.perm i j, i, j⟩

/-- The state after `n` steps. -/
def advanceBy : Nat → Rc4 → Rc4
  | 0, m => m
  | n + 1, m => advance (advanceBy n m)

/-- The keystream byte of the step that led to `m`: the entry at the sum of the two entries just swapped
(41_keystream.md R81: the sum is the same before and after the swap, the lookup is after it). -/
def output (m : Rc4) : Byte := m.perm (m.perm m.i + m.perm m.j)

/-- Keystream byte number `n` from a state on, from 0 (41_keystream.md R88). -/
def keystream (m : Rc4) (n : Nat) : Byte := output (advanceBy (n + 1) m)

/-- The byte XFORM writes as destination byte number `n` (41_keystream.md R82). -/
def outputByte (s : State) (n : Nat) : Byte := s.mem.byteAt (srcOf s + n) ^^^ keystream (view s.cipher) n

/-- The reads of a successful INIT (20_memory.md R39, first item). -/
def initTraffic (s : State) : List Access := (List.range 256).map fun r => .read (keyaddrOf s + r % keylenOf s)

/-- The accesses of a completed XFORM (20_memory.md R39, second item). -/
def xformTraffic (s : State) : List Access :=
  (List.range (lenOf s)).flatMap fun n => [.read (srcOf s + n), .write (dstOf s + n) (outputByte s n)]

/-- `s` with the operands of a transform written by the host. -/
def withBuffers (s : State) (src dst len : Nat) : State :=
  { s with regs := { s.regs with src := BitVec.ofNat 32 src, dst := BitVec.ofNat 32 dst, len := BitVec.ofNat 32 len } }

/-- A transform in chunks of the given lengths, the host advancing `SRC` and `DST` by each chunk's length
(41_keystream.md R86, 70_reset_and_hazards.md R134). -/
def inChunks : List Nat → Nat → Nat → State → Host.Outcome State Fault Refusal
  | [], _, _, s => .next s
  | c :: rest, src, dst, s =>
    match exec .xform (withBuffers s src dst c) with
    | .next t => inChunks rest (src + c) (dst + c) t
    | .fault f => .fault f
    | .refused r => .refused r

/-- The distance of two natural numbers, `|a - b|` (60_exceptions.md R111). -/
def distance (a b : Nat) : Nat := ((a : Int) - (b : Int)).natAbs

end Sys2Proof.Reference
end

