-- ==== Sys2Proof/Safety.lean ====
section
/-! DEFINITION. A good end of a run, the invariant of the block, and the words the statements use about buffers. -/

namespace Sys2Proof.Machine

/-- A good end of a run: `FATAL` = 0 (70_reset_and_hazards.md R143). -/
def State.good (s : State) : Prop := s.fatal = false

/-- The table is a bijection on 0 to 255: every value appears exactly once (10_state.md R20). -/
def Table.Bijection (t : Table) : Prop := Function.Bijective t.entry

/-- What ERRINFO holds beside each code (60_exceptions.md R112). -/
def errInfoLegal (e : ErrCode) (info : Word) : Prop :=
  match e with
  | .keysize => info.toNat = 0 ∨ 257 ≤ info.toNat
  | .illegal => info ≠ 1 ∧ info ≠ 2 ∧ info ≠ 3
  | .ok => info = 0
  | .overlap => info = 0
  | .notkeyed => info = 0
  | .range => info = 0

/-- The invariant of the machine between two host transactions. -/
structure State.Inv (s : State) : Prop where
  /-- 10_state.md R20. -/
  keyed_bijection : s.keyed = true → s.cipher.table.Bijection
  /-- 10_state.md R21. -/
  unkeyed_zero : s.keyed = false → s.cipher = Cipher.zero
  /-- 10_state.md R23: `FATAL` = 1 implies `ERR` = OVERLAP and `KEYED` = 1. -/
  fatal_overlap_keyed : s.fatal = true → s.err = .overlap ∧ s.keyed = true
  /-- 60_exceptions.md R111, R114: OVERLAP is recorded by the fatal fault only. -/
  overlap_fatal : s.err = .overlap → s.fatal = true
  /-- 60_exceptions.md R112. -/
  errInfo_legal : errInfoLegal s.err s.errInfo
  /-- The memory is in canonical form (log entry 1). -/
  mem_canonical : s.mem.wf = true

/-- The conditions under which INIT runs to its end (40_key_schedule.md R70). -/
structure InitRuns (s : State) : Prop where
  notFaulted : s.fatal = false
  keyLegal : 1 ≤ keylenOf s ∧ keylenOf s ≤ 256
  keyInRange : keyaddrOf s + keylenOf s ≤ 2 ^ 32

/-- Source and destination are the same range or share no address, or are empty (41_keystream.md R83, R80). -/
def buffersAdmitted (src dst len : Nat) : Prop := src = dst ∨ src + len ≤ dst ∨ dst + len ≤ src

/-- The conditions under which XFORM runs to its end (41_keystream.md R80, R83). An empty transform is never a partial
overlap. -/
structure XformRuns (s : State) : Prop where
  notFaulted : s.fatal = false
  isKeyed : s.keyed = true
  srcInRange : srcOf s + lenOf s ≤ 2 ^ 32
  dstInRange : dstOf s + lenOf s ≤ 2 ^ 32
  admitted : lenOf s = 0 ∨ buffersAdmitted (srcOf s) (dstOf s) (lenOf s)

end Sys2Proof.Machine
end

