-- ==== Sys2Proof/Certificates/Slice0/Obligations.lean ====
section
/-! DEFINITION. The statements about the model, from the numbered rules of spec/. -/

open Sys2Proof Sys2Proof.Machine Sys2Proof.Reference

/-! ### Command words and transactions -/

/-- The three words of 30_encoding.md section 2 and four illegal ones (section 4; the words of 95_test_vectors.md V40); and packed
forms of section 6 and V40. -/
def Obligations.CommandWordsDecode : Prop :=
  decode 0x00000001 = .ok .init ∧ decode 0x00000002 = .ok .xform ∧ decode 0x00000003 = .ok .clear ∧
  decode 0x00000000 = .error (.illegal 0x00000000) ∧ decode 0x00000004 = .error (.illegal 0x00000004) ∧
  decode 0x00000101 = .error (.illegal 0x00000101) ∧ decode 0x80000002 = .error (.illegal 0x80000002) ∧
  encodePacked (.write .cmd (encode .init)) = some 0x800000001 ∧
  encodePacked (.write .cmd (encode .xform)) = some 0x800000002 ∧
  encodePacked (.write .cmd (encode .clear)) = some 0x800000003 ∧
  encodePacked (.read .status) = some 0x100000000 ∧ encodePacked (.read .errinfo) = some 0x200000000 ∧
  encodePacked (.write .keyaddr 0x00001000) = some 0xB00001000 ∧
  encodePacked (.write .keylen 0xFFFFFFFF) = some 0xCFFFFFFFF ∧
  encodePacked (.write .src 0xDEADBEEF) = some 0xDDEADBEEF ∧
  encodePacked (.write .dst 0x00003000) = some 0xE00003000 ∧ encodePacked (.write .len 0x0000000E) = some 0xF0000000E

/-- 30_encoding.md sections 1, 2, 4: a word is a command exactly when it is that command's word; it is illegal exactly when
it is none of the three; and it is a command exactly when its fields `zero` and `op` are as the map gives them. -/
def Obligations.DecodingIsStrict : Prop :=
  ∀ w : Word,
    (∀ i, decode w = .ok i ↔ w = encode i) ∧
    (decode w = .error (.illegal w) ↔ w ≠ 0x00000001 ∧ w ≠ 0x00000002 ∧ w ≠ 0x00000003) ∧
    (commandWordWf w = true ↔ ∃ i, decode w = .ok i)

/-- 30_encoding.md section 1, the packed form: a transaction that has one is read back from it, its fields stand where
the table puts them, and a well-formed packed number is some transaction's. -/
def Obligations.PackedFormRoundTrip : Prop :=
  (∀ t p, encodePacked t = some p → decodePacked p = t ∧ packedWf p = true) ∧
  (∀ p, packedWf p = true → encodePacked (decodePacked p) = some p) ∧
  (∀ r v p, encodePacked (.write r v) = some p →
    p.getLsbD 35 = true ∧ p.extractLsb' 32 3 = r.index ∧ p.extractLsb' 0 32 = v) ∧
  (∀ r p, encodePacked (.read r) = some p →
    p.getLsbD 35 = false ∧ p.extractLsb' 32 3 = r.index ∧ p.extractLsb' 0 32 = 0)

/-- 30_encoding.md R54: a word that is none of the three is refused with `ILLEGAL` and `ERRINFO` = the word, and nothing else
changes. -/
def Obligations.IllegalWordRefused : Prop :=
  ∀ (s : State) (w : Word) (rest : List HostEvent),
    s.inbox = .transaction (.write .cmd w) :: rest → s.fatal = false →
    w ≠ 0x00000001 → w ≠ 0x00000002 → w ≠ 0x00000003 →
    step s = .next { s with inbox := rest, err := .illegal, errInfo := w }

/-- The step runs the decoded command: with a write to CMD as the next event, in a block that is not faulted, the step is
`exec` of the command the word decodes to, on the state with the event taken; and a word placed by `withFetchWord` is
that event. -/
def Obligations.StepRunsDecodedCommand : Prop :=
  (∀ (s : State) (w : Word) (rest : List HostEvent) (i : Instr),
    s.inbox = .transaction (.write .cmd w) :: rest → s.fatal = false → decode w = .ok i →
    step s = exec i { s with inbox := rest }) ∧
  (∀ (s : State) (i : Instr), s.fatal = false →
    step (s.withFetchWord 32 (encode i).toNat) = exec i s)

/-- 30_encoding.md R58: the effect of a write to CMD, and the three ways a command ends. -/
def Obligations.CmdWriteDispatch : Prop :=
  ∀ (s : State) (w : Word) (rest : List HostEvent),
    s.inbox = .transaction (.write .cmd w) :: rest →
    (step s =
      if s.fatal = true then .next { s with inbox := rest }
      else if w = 0x00000001 then exec .init { s with inbox := rest }
      else if w = 0x00000002 then exec .xform { s with inbox := rest }
      else if w = 0x00000003 then exec .clear { s with inbox := rest }
      else .next (refuse .illegal w { s with inbox := rest })) ∧
    (s.fatal = false → ∀ t, step s = .next t →
      (t.err = .ok ∧ t.errInfo = 0 ∧ t.fatal = false) ∨
      (∃ e info, e ≠ .ok ∧ e ≠ .overlap ∧ t = refuse e info { s with inbox := rest }) ∨
      t = fatalFault .overlap 0 { s with inbox := rest })

/-- 60_exceptions.md sections 2 and 7, 10_state.md section 7: with no event waiting the block waits, and nothing changes. -/
def Obligations.IdleBlockWaits : Prop :=
  ∀ s : State, s.inbox = [] → step s = .next s

/-! ### Status, the faulted state, reset -/

/-- 60_exceptions.md R119: in the faulted state every host write is ignored, every host read works, STATUS reads 0x00000023 (in the states the
invariant admits), and a step leaves the faulted state only by `Reset`, which destroys the Cipher State. -/
def Obligations.FaultedBlockIgnoresWrites : Prop :=
  ∀ s : State, s.fatal = true →
    (∀ r v rest, s.inbox = .transaction (.write r v) :: rest → step s = .next { s with inbox := rest }) ∧
    (∀ r rest, s.inbox = .transaction (.read r) :: rest →
      step s = .next { s with inbox := rest, replies := s.replies ++ [readRegister r s] }) ∧
    (s.Inv → readRegister .status s = 0x00000023) ∧
    (∀ e rest t, s.inbox = e :: rest → step s = .next t → t.fatal = false → e = .transaction .reset) ∧
    (∀ rest, s.inbox = .transaction .reset :: rest →
      ∃ t, step s = .next t ∧ t.fatal = false ∧ t.cipher = Cipher.zero)

/-- 10_state.md R13: `FATAL` is set by an XFORM that finds a partial overlap and by nothing else, cleared by reset and by nothing else,
and read as STATUS bit 1; while it is 1 every host write is ignored. -/
def Obligations.FatalFlagSetAndCleared : Prop :=
  (∀ (s t : State) (e : HostEvent) (rest : List HostEvent), s.inbox = e :: rest → step s = .next t →
    (s.fatal = false → t.fatal = true →
      e = .transaction (.write .cmd 0x00000002) ∧ s.keyed = true ∧
        partialOverlap (srcOf s) (dstOf s) (lenOf s) = true) ∧
    (s.fatal = true → t.fatal = false → e = .transaction .reset) ∧
    (e = .transaction .reset → t.fatal = false) ∧
    (s.fatal = true → ∀ r v, e = .transaction (.write r v) → t = { s with inbox := rest })) ∧
  (∀ s : State, s.keyed = true → s.fatal = false → srcOf s + lenOf s ≤ 2 ^ 32 → dstOf s + lenOf s ≤ 2 ^ 32 →
    partialOverlap (srcOf s) (dstOf s) (lenOf s) = true → ∃ t, exec .xform s = .next t ∧ t.fatal = true) ∧
  (∀ s : State, (readRegister .status s).getLsbD 1 = s.fatal)

/-- 10_state.md section 2: `KEYED` rises only by an INIT that runs, falls only by CLEAR and reset, and stays as it is otherwise. -/
def Obligations.KeyedFlagRisesAndFalls : Prop :=
  ∀ (s t : State) (e : HostEvent) (rest : List HostEvent), s.inbox = e :: rest → step s = .next t →
    (e = .transaction (.write .cmd 0x00000001) → InitRuns s → t.keyed = true) ∧
    (e = .transaction (.write .cmd 0x00000003) → s.fatal = false → t.keyed = false) ∧
    (e = .transaction .reset → t.keyed = false) ∧
    (¬ (e = .transaction (.write .cmd 0x00000001) ∧ InitRuns s) →
      ¬ (e = .transaction (.write .cmd 0x00000003) ∧ s.fatal = false) →
      e ≠ .transaction .reset → t.keyed = s.keyed)

/-- 60_exceptions.md R112: what ERRINFO holds beside each code after a write to CMD in a block that is not faulted; the operand
registers are as before. -/
def Obligations.ErrorValueRecorded : Prop :=
  ∀ (s t : State) (w : Word) (rest : List HostEvent),
    s.inbox = .transaction (.write .cmd w) :: rest → s.fatal = false → step s = .next t →
    (t.err = .keysize → t.errInfo = s.regs.keyLen ∧ (t.errInfo.toNat = 0 ∨ 257 ≤ t.errInfo.toNat)) ∧
    (t.err = .illegal → t.errInfo = w) ∧
    (t.err ≠ .keysize → t.err ≠ .illegal → t.errInfo = 0) ∧
    t.regs = s.regs

/-- 10_state.md section 2 (`ERR` and `ERRINFO`): a step that is no write to CMD and no reset leaves both as they were, and so does
every step but a reset in the faulted state. -/
def Obligations.OutcomeKeptByOtherEvents : Prop :=
  ∀ (s t : State) (e : HostEvent) (rest : List HostEvent), s.inbox = e :: rest → step s = .next t →
    e ≠ .transaction .reset → ((∀ w, e ≠ .transaction (.write .cmd w)) ∨ s.fatal = true) →
    t.err = s.err ∧ t.errInfo = s.errInfo

/-- 42_clear_and_host_access.md R101: the value a host read returns, register by register, in every state; nothing else changes. -/
def Obligations.HostReadReturnsRegister : Prop :=
  ∀ (s : State) (r : Reg) (rest : List HostEvent), s.inbox = .transaction (.read r) :: rest →
    step s = .next { s with
      inbox := rest
      replies := s.replies ++ [match r with
        | .cmd => 0x00000000
        | .status => BitVec.ofNat 32 (s.err.code.toNat * 16 + s.fatal.toNat * 2 + s.keyed.toNat)
        | .errinfo => s.errInfo
        | .keyaddr => s.regs.keyAddr
        | .keylen => s.regs.keyLen
        | .src => s.regs.src
        | .dst => s.regs.dst
        | .len => s.regs.len] }

/-- 10_state.md section 4: the fields of STATUS, their reset values, that the host cannot write them, the value read, the legal codes
(numbered as 60_exceptions.md section 1 numbers them), and what a set `FATAL` implies, which the spec marks as derived. -/
def Obligations.StatusFields : Prop :=
  readRegister .status State.reset = 0 ∧
  [ErrCode.ok, .keysize, .overlap, .notkeyed, .illegal, .range].map ErrCode.code = [0, 1, 2, 3, 4, 5] ∧
  ∀ s : State,
    (∀ v rest, s.inbox = .transaction (.write .status v) :: rest → step s = .next { s with inbox := rest }) ∧
    (readRegister .status s).extractLsb' 8 24 = 0 ∧ (readRegister .status s).extractLsb' 4 4 = s.err.code ∧
    (readRegister .status s).extractLsb' 2 2 = 0 ∧ (readRegister .status s).getLsbD 1 = s.fatal ∧
    (readRegister .status s).getLsbD 0 = s.keyed ∧
    (readRegister .status s).toNat = s.err.code.toNat * 16 + s.fatal.toNat * 2 + s.keyed.toNat ∧
    s.err.code.toNat ≤ 5 ∧
    (s.Inv → s.fatal = true → s.err.code = 2 ∧ s.keyed = true)

/-- 42_clear_and_host_access.md R102: a write to an operand register stores all 32 bits and changes nothing else; in the faulted state
it is ignored. -/
def Obligations.OperandWriteStores : Prop :=
  ∀ (s : State) (v : Word) (rest : List HostEvent),
    (s.fatal = false →
      (s.inbox = .transaction (.write .keyaddr v) :: rest →
        step s = .next { s with inbox := rest, regs := { s.regs with keyAddr := v } }) ∧
      (s.inbox = .transaction (.write .keylen v) :: rest →
        step s = .next { s with inbox := rest, regs := { s.regs with keyLen := v } }) ∧
      (s.inbox = .transaction (.write .src v) :: rest →
        step s = .next { s with inbox := rest, regs := { s.regs with src := v } }) ∧
      (s.inbox = .transaction (.write .dst v) :: rest →
        step s = .next { s with inbox := rest, regs := { s.regs with dst := v } }) ∧
      (s.inbox = .transaction (.write .len v) :: rest →
        step s = .next { s with inbox := rest, regs := { s.regs with len := v } })) ∧
    (s.fatal = true → ∀ r, s.inbox = .transaction (.write r v) :: rest → step s = .next { s with inbox := rest })

/-- 42_clear_and_host_access.md section 2, STATUS and ERRINFO: a write to either is ignored in every state. -/
def Obligations.ReadOnlyWritesIgnored : Prop :=
  ∀ (s : State) (v : Word) (rest : List HostEvent),
    (s.inbox = .transaction (.write .status v) :: rest ∨ s.inbox = .transaction (.write .errinfo v) :: rest) →
    step s = .next { s with inbox := rest }

/-- 70_reset_and_hazards.md R130: `Reset` acts in every state, sets every piece of the block's state to its reset value and leaves the
buffer memory unchanged; in the faulted state no other transaction acts on the block. -/
def Obligations.ResetTransaction : Prop :=
  (∀ (s t : State) (tr : HostTransaction) (rest : List HostEvent), s.inbox = .transaction tr :: rest →
    s.fatal = true → tr ≠ .reset → step s = .next t → t = { s with inbox := rest, replies := t.replies }) ∧
  ∀ (s : State) (rest : List HostEvent), s.inbox = .transaction .reset :: rest →
    ∃ t, step s = .next t ∧
      (∀ a, t.cipher.table.entry a = 0) ∧ t.cipher.i = 0 ∧ t.cipher.j = 0 ∧
      t.keyed = false ∧ t.fatal = false ∧ t.err = .ok ∧ t.errInfo = 0 ∧
      t.regs = ⟨0, 0, 0, 0, 0⟩ ∧ t.mem = s.mem ∧ readRegister .status t = 0 ∧
      t.inbox = rest ∧ t.replies = s.replies

/-- 10_state.md R24: the reset value of every piece of the block's state; reset does not change the memory. -/
def Obligations.ResetStateValues : Prop :=
  (∀ a, State.reset.cipher.table.entry a = 0) ∧ State.reset.cipher.i = 0 ∧ State.reset.cipher.j = 0 ∧
  State.reset.keyed = false ∧ State.reset.fatal = false ∧ State.reset.err = .ok ∧ State.reset.errInfo = 0 ∧
  State.reset.regs.keyAddr = 0 ∧ State.reset.regs.keyLen = 0 ∧ State.reset.regs.src = 0 ∧
  State.reset.regs.dst = 0 ∧ State.reset.regs.len = 0 ∧
  (∀ s, (hostReset s).mem = s.mem ∧ (hostReset s).cipher = State.reset.cipher)

/-- 70_reset_and_hazards.md section 1 (the spec derives it from its rules for reset and CLEAR): reset and CLEAR compared, in a block that is not faulted and in one that is. -/
def Obligations.ResetAndClearCompared : Prop :=
  ∀ s : State,
    (s.fatal = false → exec .clear s = .next { hostReset s with regs := s.regs }) ∧
    (s.fatal = true → exec .clear s = .next s) ∧
    (hostReset s).fatal = false ∧ (hostReset s).cipher = Cipher.zero ∧ (hostReset s).keyed = false ∧
    (hostReset s).err = .ok ∧ (hostReset s).errInfo = 0 ∧ (hostReset s).regs = ⟨0, 0, 0, 0, 0⟩

/-! ### Memory -/

/-- 20_memory.md sections 1 and 6, 70_reset_and_hazards.md section 5: a byte the host writes between two commands is the byte read
from then on, every other byte and the block's state stay. The event itself is the model's (log entry 2). -/
def Obligations.HostMemoryWriteLands : Prop :=
  ∀ (s : State) (a : Word) (v : Byte) (rest : List HostEvent),
    s.inbox = .memoryWrite a v :: rest → s.mem.wf = true →
    ∃ m : Memory, step s = .next { s with inbox := rest, mem := m } ∧ m.wf = true ∧
      ∀ b, m.byteAt b = if b = a.toNat then v else s.mem.byteAt b

/-- 20_memory.md section 2, the two access primitives, at the addresses that exist; at any other they are no access (the model's fault). -/
def Obligations.MemoryPortPrimitives : Prop :=
  ∀ (p : Port) (a : Nat) (v : Byte), p.mem.wf = true →
    (a < 2 ^ 32 →
      (∃ q, memRead a p = .ok (p.mem.byteAt a, q) ∧ q.mem = p.mem ∧ q.trace = p.trace ++ [.read a]) ∧
      (∃ q, memWrite a v p = .ok q ∧ q.mem.wf = true ∧ (∀ b, q.mem.byteAt b = if b = a then v else p.mem.byteAt b) ∧
        q.trace = p.trace ++ [.write a v])) ∧
    (2 ^ 32 ≤ a → memRead a p = .error (.noSuchAddress a) ∧ memWrite a v p = .error (.noSuchAddress a))

/-! ### INIT -/

/-- 40_key_schedule.md R71: one round, in natural numbers modulo 256; it exchanges two entries, reads one key byte, never fails
for a legal key, and maps a bijection to a bijection. -/
def Obligations.KsaRoundRule : Prop :=
  ∀ (k keyaddr r : Nat) (x : Schedule), 1 ≤ k → k ≤ 256 → keyaddr + k ≤ 2 ^ 32 → r < 256 →
    ∃ y, ksaRound k keyaddr r x = .ok y ∧
      y.acc.toNat = (x.acc.toNat + (x.table.entry (BitVec.ofNat 8 r)).toNat +
        (x.port.mem.byteAt (keyaddr + r % k)).toNat) % 256 ∧
      (∀ a, y.table.entry a =
        if a = BitVec.ofNat 8 r then x.table.entry y.acc
        else if a = y.acc then x.table.entry (BitVec.ofNat 8 r) else x.table.entry a) ∧
      y.port.mem = x.port.mem ∧ y.port.trace = x.port.trace ++ [.read (keyaddr + r % k)] ∧
      (x.table.Bijection → y.table.Bijection)

/-- 40_key_schedule.md section 1 (with the accumulator's start value the spec gives as its own, log entry 10): an INIT that passes its tests completes, and its whole effect is the scheduled table of the functional key
schedule, both indices 0, `KEYED` = 1, `ERR` = `OK`, `ERRINFO` = 0. -/
def Obligations.InitSchedulesKey : Prop :=
  ∀ s : State, InitRuns s →
    ∃ t, exec .init s = .next t ∧
      (∀ a, t.cipher.table.entry a = (schedule (keyOf s.mem (keyaddrOf s) (keylenOf s)) 256).1 a) ∧
      t.cipher.i = 0 ∧ t.cipher.j = 0 ∧ t.cipher.table.Bijection ∧
      t = { s with cipher := t.cipher, keyed := true, err := .ok, errInfo := 0 }

/-- 40_key_schedule.md section 1, Properties: the Cipher State after a successful INIT depends on the key length and the key bytes only,
not on where the key lies nor on the state before. -/
def Obligations.InitDependsOnKeyOnly : Prop :=
  ∀ s s' : State, InitRuns s → InitRuns s' → keylenOf s = keylenOf s' →
    (∀ m, m < keylenOf s → s.mem.byteAt (keyaddrOf s + m) = s'.mem.byteAt (keyaddrOf s' + m)) →
    ∃ t t', exec .init s = .next t ∧ exec .init s' = .next t' ∧ t.cipher = t'.cipher ∧ t.keyed = t'.keyed

/-- 40_key_schedule.md section 2, the last sentence of the key byte's rule: a key and its whole-number repetition schedule alike. -/
def Obligations.RepeatedKeySchedulesAlike : Prop :=
  ∀ (s s' : State) (c : Nat), InitRuns s → InitRuns s' → keylenOf s' = c * keylenOf s →
    (∀ m, m < keylenOf s' →
      s'.mem.byteAt (keyaddrOf s' + m) = s.mem.byteAt (keyaddrOf s + m % keylenOf s)) →
    ∃ t t', exec .init s = .next t ∧ exec .init s' = .next t' ∧ t.cipher = t'.cipher

/-! ### XFORM -/

/-- 41_keystream.md R81: one step, in natural numbers modulo 256; the keystream byte is read after the swap; one swap maps a
bijection to a bijection. -/
def Obligations.PrgaStepRule : Prop :=
  ∀ c : Cipher,
    let d := (prgaStep c).1
    let x := c.table.entry d.i
    let y := c.table.entry d.j
    d.i.toNat = (c.i.toNat + 1) % 256 ∧ d.j.toNat = (c.j.toNat + x.toNat) % 256 ∧
    (∀ a, d.table.entry a = if a = d.i then y else if a = d.j then x else c.table.entry a) ∧
    (prgaStep c).2 = d.table.entry (BitVec.ofNat 8 ((x.toNat + y.toNat) % 256)) ∧
    (c.table.Bijection → d.table.Bijection)

/-- 41_keystream.md R82: the byte read, xor the keystream byte, is the byte written; every other byte stays; the read
comes first. -/
def Obligations.XorByteRule : Prop :=
  ∀ (sa da : Nat) (key : Byte) (p : Port), sa < 2 ^ 32 → da < 2 ^ 32 → p.mem.wf = true →
    ∃ q, xorByte sa da key p = .ok q ∧
      (∀ a, q.mem.byteAt a = if a = da then p.mem.byteAt sa ^^^ key else p.mem.byteAt a) ∧
      q.trace = p.trace ++ [.read sa, .write da (p.mem.byteAt sa ^^^ key)]

/-- 41_keystream.md R83: the guard is `0 < |src - dst| < len`; it is the existence of a shared address with different starts; it is
symmetric; it is false for every empty and every one-byte buffer. -/
def Obligations.OverlapGuard : Prop :=
  ∀ src dst len : Nat,
    (partialOverlap src dst len = true ↔ 0 < distance src dst ∧ distance src dst < len) ∧
    (partialOverlap src dst len = true ↔
      src ≠ dst ∧ ∃ a, (src ≤ a ∧ a < src + len) ∧ (dst ≤ a ∧ a < dst + len)) ∧
    partialOverlap src dst len = partialOverlap dst src len ∧
    partialOverlap src dst 0 = false ∧ partialOverlap src dst 1 = false

/-- 41_keystream.md section 1: an XFORM that passes its tests completes; destination byte `n` is source byte `n` xor keystream byte `n`, every
other byte stays; the Cipher State is `LEN` steps on; `ERR` = `OK`, `ERRINFO` = 0; nothing else changes. -/
def Obligations.XformTransformsBuffer : Prop :=
  ∀ s : State, XformRuns s → s.mem.wf = true →
    ∃ t, exec .xform s = .next t ∧
      (∀ n, n < lenOf s →
        t.mem.byteAt (dstOf s + n) = s.mem.byteAt (srcOf s + n) ^^^ keystream (view s.cipher) n) ∧
      (∀ a, ¬ (dstOf s ≤ a ∧ a < dstOf s + lenOf s) → t.mem.byteAt a = s.mem.byteAt a) ∧
      view t.cipher = advanceBy (lenOf s) (view s.cipher) ∧
      t = { s with cipher := t.cipher, mem := t.mem, err := .ok, errInfo := 0 }

/-- 60_exceptions.md R116: the fixed order of the tests of every command, and that the first that holds is the one recorded. -/
def Obligations.AdmissionOrder : Prop :=
  ∀ (s : State) (w : Word) (rest : List HostEvent), s.inbox = .transaction (.write .cmd w) :: rest →
    (s.fatal = true → step s = .next { s with inbox := rest }) ∧
    (s.fatal = false →
      (w ≠ 0x00000001 → w ≠ 0x00000002 → w ≠ 0x00000003 →
        step s = .next { s with inbox := rest, err := .illegal, errInfo := w }) ∧
      (w = 0x00000001 →
        (keylenOf s < 1 ∨ 256 < keylenOf s →
          step s = .next { s with inbox := rest, err := .keysize, errInfo := s.regs.keyLen }) ∧
        (1 ≤ keylenOf s → keylenOf s ≤ 256 → 2 ^ 32 < keyaddrOf s + keylenOf s →
          step s = .next { s with inbox := rest, err := .range, errInfo := 0 }) ∧
        (1 ≤ keylenOf s → keylenOf s ≤ 256 → keyaddrOf s + keylenOf s ≤ 2 ^ 32 →
          ∃ t, step s = .next t ∧ t.err = .ok)) ∧
      (w = 0x00000002 →
        (s.keyed = false → step s = .next { s with inbox := rest, err := .notkeyed, errInfo := 0 }) ∧
        (s.keyed = true → 2 ^ 32 < srcOf s + lenOf s ∨ 2 ^ 32 < dstOf s + lenOf s →
          step s = .next { s with inbox := rest, err := .range, errInfo := 0 }) ∧
        (s.keyed = true → srcOf s + lenOf s ≤ 2 ^ 32 → dstOf s + lenOf s ≤ 2 ^ 32 →
          0 < distance (srcOf s) (dstOf s) → distance (srcOf s) (dstOf s) < lenOf s →
          step s = .next { s with inbox := rest, fatal := true, err := .overlap, errInfo := 0 }) ∧
        (s.keyed = true → srcOf s + lenOf s ≤ 2 ^ 32 → dstOf s + lenOf s ≤ 2 ^ 32 →
          distance (srcOf s) (dstOf s) = 0 ∨ lenOf s ≤ distance (srcOf s) (dstOf s) →
          ∃ t, step s = .next t ∧ t.err = .ok)) ∧
      (w = 0x00000003 → ∃ t, step s = .next t ∧ t.err = .ok))

/-- 41_keystream.md section 4 (the spec derives it from its rules for XFORM and the guard): an empty transform on a keyed block changes no Cipher State, makes no access and ends with `ERR` = `OK`. -/
def Obligations.EmptyTransformIsNoOp : Prop :=
  ∀ s : State, s.fatal = false → s.keyed = true → lenOf s = 0 →
    exec .xform s = .next { s with err := .ok, errInfo := 0 } ∧ traffic .xform s = .ok []

/-- 20_memory.md R37: a command whose buffer would pass the top of the address space is refused with `RANGE` before any access; a buffer
of length 0 satisfies the rule; the addresses of a command that runs are sums of natural numbers inside its buffers, never
wrapped. -/
def Obligations.RangeRule : Prop :=
  (∀ base len : Nat, inRange base len = true ↔ base + len ≤ 2 ^ 32) ∧ (∀ base : Word, inRange base.toNat 0 = true) ∧
  (∀ s : State, s.fatal = false →
    (1 ≤ keylenOf s → keylenOf s ≤ 256 → 2 ^ 32 < keyaddrOf s + keylenOf s →
      exec .init s = .next { s with err := .range, errInfo := 0 } ∧ traffic .init s = .ok []) ∧
    (s.keyed = true → 2 ^ 32 < srcOf s + lenOf s ∨ 2 ^ 32 < dstOf s + lenOf s →
      exec .xform s = .next { s with err := .range, errInfo := 0 } ∧ traffic .xform s = .ok [])) ∧
  (∀ s : State, InitRuns s → ∃ l, traffic .init s = .ok l ∧
    ∀ x, x ∈ l → ∃ m, m < keylenOf s ∧ x = .read (keyaddrOf s + m)) ∧
  (∀ s : State, XformRuns s → ∃ l, traffic .xform s = .ok l ∧
    ∀ x, x ∈ l → ∃ n, n < lenOf s ∧ (x = .read (srcOf s + n) ∨ ∃ v, x = .write (dstOf s + n) v))

/-- 41_keystream.md R85: the bytes a completed XFORM reads are exactly those of the source, the bytes it writes exactly those of
the destination, and every other byte is untouched. -/
def Obligations.XformTouchesItsBuffersOnly : Prop :=
  ∀ s : State, XformRuns s → s.mem.wf = true →
    ∃ t l, exec .xform s = .next t ∧ traffic .xform s = .ok l ∧
      (∀ a, .read a ∈ l ↔ srcOf s ≤ a ∧ a < srcOf s + lenOf s) ∧
      (∀ a, (∃ v, .write a v ∈ l) ↔ dstOf s ≤ a ∧ a < dstOf s + lenOf s) ∧
      (∀ a, ¬ (dstOf s ≤ a ∧ a < dstOf s + lenOf s) → t.mem.byteAt a = s.mem.byteAt a)

/-- 20_memory.md section 6: the accesses of each command, in order: 256 key reads; `LEN` reads and writes interleaved; none for CLEAR and
for every command that is refused, faults or is ignored; no other transaction changes the memory. -/
def Obligations.CommandTraffic : Prop :=
  (∀ s : State, InitRuns s →
    traffic .init s = .ok ((List.range 256).map fun r => .read (keyaddrOf s + r % keylenOf s))) ∧
  (∀ s : State, XformRuns s → s.mem.wf = true →
    traffic .xform s = .ok ((List.range (lenOf s)).flatMap fun n =>
      [.read (srcOf s + n),
       .write (dstOf s + n) (s.mem.byteAt (srcOf s + n) ^^^ keystream (view s.cipher) n)])) ∧
  (∀ s : State, ¬ InitRuns s → traffic .init s = .ok []) ∧
  (∀ s : State, ¬ XformRuns s → traffic .xform s = .ok []) ∧
  (∀ s : State, traffic .clear s = .ok []) ∧
  (∀ (s t : State) (tr : HostTransaction) (rest : List HostEvent),
    s.inbox = .transaction tr :: rest → tr ≠ .write .cmd 0x00000002 → step s = .next t → t.mem = s.mem)

/-- 41_keystream.md section 4, streaming equivalence (marked as derived by the spec): a transform in chunks leaves the same Cipher State and the same memory as one transform of the whole; every
chunk of an admitted transform passes its tests. -/
def Obligations.StreamingEquivalence : Prop :=
  ∀ (s : State) (chunks : List Nat), XformRuns s → s.mem.wf = true → chunks.sum = lenOf s →
    ∃ t u, exec .xform s = .next t ∧ inChunks chunks (srcOf s) (dstOf s) s = .next u ∧
      u.cipher = t.cipher ∧ u.mem = t.mem ∧ u.fatal = false ∧ (chunks ≠ [] → u.err = .ok)

/-- 41_keystream.md section 4, symmetry (marked as derived by the spec): encrypt, schedule the same key again, and the same transform of the result gives the original
bytes. The key buffer must survive the first transform. -/
def Obligations.TransformIsItsOwnInverse : Prop :=
  ∀ (s : State) (dst2 : Word), s.mem.wf = true → InitRuns s → XformRuns { s with keyed := true } →
    XformRuns { s with keyed := true, regs := { s.regs with src := s.regs.dst, dst := dst2 } } →
    (keyaddrOf s + keylenOf s ≤ dstOf s ∨ dstOf s + lenOf s ≤ keyaddrOf s) →
    ∃ a t b u, exec .init s = .next a ∧ exec .xform a = .next t ∧
      exec .init { t with regs := { t.regs with src := t.regs.dst, dst := dst2 } } = .next b ∧
      exec .xform b = .next u ∧
      ∀ n, n < lenOf s → u.mem.byteAt (dst2.toNat + n) = s.mem.byteAt (srcOf s + n)

/-- 41_keystream.md section 4, data independence (marked as derived by the spec): from one Cipher State, transforms of the same length produce the same states and the same keystream,
whatever the source bytes and the addresses. -/
def Obligations.KeystreamDataIndependent : Prop :=
  ∀ s s' : State, XformRuns s → XformRuns s' → s.mem.wf = true → s'.mem.wf = true →
    s.cipher = s'.cipher → lenOf s = lenOf s' →
    ∃ t t', exec .xform s = .next t ∧ exec .xform s' = .next t' ∧ t.cipher = t'.cipher ∧
      ∀ n, n < lenOf s →
        t.mem.byteAt (dstOf s + n) ^^^ s.mem.byteAt (srcOf s + n) =
          t'.mem.byteAt (dstOf s' + n) ^^^ s'.mem.byteAt (srcOf s' + n)

/-- 41_keystream.md section 4 (marked as derived by the spec): in place gives what a disjoint destination gives, with the same Cipher State after it. -/
def Obligations.InPlaceEqualsDisjoint : Prop :=
  ∀ s s' : State, XformRuns s → XformRuns s' → s.mem.wf = true → s'.mem.wf = true →
    s.cipher = s'.cipher → lenOf s = lenOf s' → srcOf s = dstOf s →
    (srcOf s' + lenOf s' ≤ dstOf s' ∨ dstOf s' + lenOf s' ≤ srcOf s') →
    (∀ n, n < lenOf s → s.mem.byteAt (srcOf s + n) = s'.mem.byteAt (srcOf s' + n)) →
    ∃ t t', exec .xform s = .next t ∧ exec .xform s' = .next t' ∧ t.cipher = t'.cipher ∧
      ∀ n, n < lenOf s → t.mem.byteAt (srcOf s + n) = t'.mem.byteAt (dstOf s' + n)

/-- 70_reset_and_hazards.md section 3 (marked as derived by the spec): the operand registers are not advanced (and the keystream is not rewound): the same command again
transforms the same source range with the next `LEN` keystream bytes into the same destination range; with the chunk length
added to `SRC` and `DST` it transforms the ranges that follow. -/
def Obligations.SecondTransformContinuesKeystream : Prop :=
  ∀ s : State, XformRuns s → s.mem.wf = true →
    ∃ t u, exec .xform s = .next t ∧ exec .xform t = .next u ∧ t.regs = s.regs ∧ u.regs = s.regs ∧
      view u.cipher = advanceBy (2 * lenOf s) (view s.cipher) ∧
      (∀ n, n < lenOf s →
        u.mem.byteAt (dstOf s + n) = t.mem.byteAt (srcOf s + n) ^^^ keystream (view s.cipher) (lenOf s + n)) ∧
      (∀ a, ¬ (dstOf s ≤ a ∧ a < dstOf s + lenOf s) → u.mem.byteAt a = t.mem.byteAt a) ∧
      (srcOf s + 2 * lenOf s ≤ 2 ^ 32 → dstOf s + 2 * lenOf s ≤ 2 ^ 32 →
        ∃ v, exec .xform (withBuffers t (srcOf s + lenOf s) (dstOf s + lenOf s) (lenOf s)) = .next v ∧
          ∀ n, n < lenOf s → v.mem.byteAt (dstOf s + lenOf s + n) =
            t.mem.byteAt (srcOf s + lenOf s + n) ^^^ keystream (view s.cipher) (lenOf s + n))

/-- 41_keystream.md section 4 (marked as derived by the spec): an XFORM, whatever its outcome, keeps a bijection a bijection. -/
def Obligations.XformKeepsBijection : Prop :=
  ∀ s t : State, s.cipher.table.Bijection → exec .xform s = .next t → t.cipher.table.Bijection

/-! ### CLEAR -/

/-- 42_clear_and_host_access.md R100: CLEAR zeroes the Cipher State and `KEYED`, records `OK`, keeps the operand registers and the memory,
makes no access, and is ignored in the faulted state; after it XFORM is refused. -/
def Obligations.ClearZeroesCipherState : Prop :=
  (∀ s : State, s.fatal = false →
    ∃ t, exec .clear s = .next t ∧ (∀ a, t.cipher.table.entry a = 0) ∧ t.cipher.i = 0 ∧ t.cipher.j = 0 ∧
      t = { s with cipher := t.cipher, keyed := false, err := .ok, errInfo := 0 } ∧
      exec .xform t = .next { t with err := .notkeyed, errInfo := 0 }) ∧
  (∀ s : State, s.fatal = true → exec .clear s = .next s) ∧
  (∀ s : State, traffic .clear s = .ok [])

/-! ### Frames and whole-machine rules -/

/-- The frame of the three commands: in the faulted state none changes anything; none writes an operand register (10_state.md section 3) or what is the host's; INIT and CLEAR leave every
byte of memory and `FATAL` unchanged; XFORM leaves `KEYED` unchanged. -/
def Obligations.CommandFrame : Prop :=
  ∀ (i : Instr) (s t : State), exec i s = .next t →
    t.regs = s.regs ∧ t.inbox = s.inbox ∧ t.replies = s.replies ∧
    (i = .init ∨ i = .clear → t.fatal = s.fatal ∧ ∀ a, t.mem.byteAt a = s.mem.byteAt a) ∧
    (i = .xform → t.keyed = s.keyed) ∧
    (s.fatal = true → t = s)

/-- The frame of XFORM in memory: every byte outside the `LEN` bytes from `DST` reads as before; and where it does not complete, all
of memory and the Cipher State are as before. -/
def Obligations.XformFrame : Prop :=
  ∀ s t : State, s.mem.wf = true → exec .xform s = .next t →
    (∀ a, ¬ (dstOf s ≤ a ∧ a < dstOf s + lenOf s) → t.mem.byteAt a = s.mem.byteAt a) ∧
    (¬ XformRuns s → t.mem = s.mem ∧ t.cipher = s.cipher ∧ t.keyed = s.keyed)

/-- 60_exceptions.md sections 1 and 2: a command that ends in an error leaves everything but the outcome as it was, and sets `FATAL` exactly when
the error is `OVERLAP`. -/
def Obligations.ErrorChangesNothingElse : Prop :=
  ∀ (i : Instr) (s t : State), s.fatal = false → exec i s = .next t → t.err ≠ .ok →
    t = { s with err := t.err, errInfo := t.errInfo, fatal := t.fatal } ∧ (t.fatal = true ↔ t.err = .overlap)

/-- 10_state.md sections 1 and 4 and 60_exceptions.md section 1 (two of the clauses are marked as derived by the spec, the memory's form is the
model's, log entry 1): every step keeps the invariant: a keyed block holds a bijection, an unkeyed one zeroes,
a faulted one `OVERLAP` and a key, ERRINFO a legal value, memory its canonical form. -/
def Obligations.EveryStepKeepsInvariant : Prop :=
  ∀ s t : State, s.Inv → step s = .next t → t.Inv

/-- The invariant holds right after reset, over every memory in canonical form. -/
def Obligations.ResetMeetsInvariant : Prop :=
  State.reset.Inv ∧ ∀ m : Memory, m.wf = true → (State.resetOver m).Inv

/-- 70_reset_and_hazards.md section 4, 20_memory.md section 5: every step and every command completes, in every state, and no
command forms an address outside the address space: the memory port's fault is never raised. -/
def Obligations.EveryStepCompletes : Prop :=
  (∀ s : State, ∃ t, step s = .next t) ∧
  (∀ (i : Instr) (s : State), ∃ t l, exec i s = .next t ∧ traffic i s = .ok l ∧
    (∀ a, .read a ∈ l → a < 2 ^ 32) ∧ (∀ a v, .write a v ∈ l → a < 2 ^ 32))

/-- 60_exceptions.md section 7: no host transaction returns any of the Cipher State: two blocks that differ in it only give the host the
same values, and stay alike in every host-visible register. -/
def Obligations.CipherStateInvisible : Prop :=
  ∀ (s t t' : State) (c : Cipher), step s = .next t → step { s with cipher := c } = .next t' →
    t.replies = t'.replies ∧ t.inbox = t'.inbox ∧ ∀ r, readRegister r t = readRegister r t'

/-- 30_encoding.md section 6: the expansions of the pseudo-instructions with operands run the command with those operands in place; ENCRYPT and
DECRYPT are XFORM; in the faulted state every line of an expansion is ignored. -/
def Obligations.PseudoInstructionsExpand : Prop :=
  (∀ (s : State) (a k : Word) (rest : List HostEvent), s.fatal = false →
    Sys2Proof.core.run 3 { s with inbox := (expandLine (.init a k)).map .transaction ++ rest } =
      exec .init { s with inbox := rest, regs := { s.regs with keyAddr := a, keyLen := k } }) ∧
  (∀ (s : State) (src dst len : Word) (rest : List HostEvent), s.fatal = false →
    Sys2Proof.core.run 4 { s with inbox := (expandLine (.xform src dst len)).map .transaction ++ rest } =
      exec .xform { s with inbox := rest, regs := { s.regs with src := src, dst := dst, len := len } }) ∧
  (∀ src dst len, expandLine (.encrypt src dst len) = expandLine (.xform src dst len) ∧
    expandLine (.decrypt src dst len) = expandLine (.xform src dst len)) ∧
  (∀ buf len, expandLine (.xformInPlace buf len) = expandLine (.xform buf buf len)) ∧
  (∀ (s : State) (a k : Word) (rest : List HostEvent), s.fatal = true →
    Sys2Proof.core.run 3 { s with inbox := (expandLine (.init a k)).map .transaction ++ rest } =
      .next { s with inbox := rest })
end

