-- ==== Sys2Proof/Laws/State.lean ====
section
/-! SUPPORT. What each update of the state does to each field, one lemma per field per update. -/

namespace Sys2Proof.Machine

/-! ### recordOutcome -/

@[simp] theorem recordOutcome_cipher (e : ErrCode) (info : Word) (s : State) : (recordOutcome e info s).cipher = s.cipher := rfl
@[simp] theorem recordOutcome_keyed (e : ErrCode) (info : Word) (s : State) : (recordOutcome e info s).keyed = s.keyed := rfl
@[simp] theorem recordOutcome_fatal (e : ErrCode) (info : Word) (s : State) : (recordOutcome e info s).fatal = s.fatal := rfl
@[simp] theorem recordOutcome_err (e : ErrCode) (info : Word) (s : State) : (recordOutcome e info s).err = e := rfl
@[simp] theorem recordOutcome_errInfo (e : ErrCode) (info : Word) (s : State) : (recordOutcome e info s).errInfo = info := rfl
@[simp] theorem recordOutcome_regs (e : ErrCode) (info : Word) (s : State) : (recordOutcome e info s).regs = s.regs := rfl
@[simp] theorem recordOutcome_mem (e : ErrCode) (info : Word) (s : State) : (recordOutcome e info s).mem = s.mem := rfl
@[simp] theorem recordOutcome_inbox (e : ErrCode) (info : Word) (s : State) : (recordOutcome e info s).inbox = s.inbox := rfl
@[simp] theorem recordOutcome_replies (e : ErrCode) (info : Word) (s : State) : (recordOutcome e info s).replies = s.replies := rfl

/-! ### refuse (60_exceptions.md R113) -/

@[simp] theorem refuse_cipher (e : ErrCode) (info : Word) (s : State) : (refuse e info s).cipher = s.cipher := rfl
@[simp] theorem refuse_keyed (e : ErrCode) (info : Word) (s : State) : (refuse e info s).keyed = s.keyed := rfl
@[simp] theorem refuse_fatal (e : ErrCode) (info : Word) (s : State) : (refuse e info s).fatal = s.fatal := rfl
@[simp] theorem refuse_err (e : ErrCode) (info : Word) (s : State) : (refuse e info s).err = e := rfl
@[simp] theorem refuse_errInfo (e : ErrCode) (info : Word) (s : State) : (refuse e info s).errInfo = info := rfl
@[simp] theorem refuse_regs (e : ErrCode) (info : Word) (s : State) : (refuse e info s).regs = s.regs := rfl
@[simp] theorem refuse_mem (e : ErrCode) (info : Word) (s : State) : (refuse e info s).mem = s.mem := rfl
@[simp] theorem refuse_inbox (e : ErrCode) (info : Word) (s : State) : (refuse e info s).inbox = s.inbox := rfl
@[simp] theorem refuse_replies (e : ErrCode) (info : Word) (s : State) : (refuse e info s).replies = s.replies := rfl

/-! ### fatalFault (60_exceptions.md R114) -/

@[simp] theorem fatalFault_cipher (e : ErrCode) (info : Word) (s : State) : (fatalFault e info s).cipher = s.cipher := rfl
@[simp] theorem fatalFault_keyed (e : ErrCode) (info : Word) (s : State) : (fatalFault e info s).keyed = s.keyed := rfl
@[simp] theorem fatalFault_fatal (e : ErrCode) (info : Word) (s : State) : (fatalFault e info s).fatal = true := rfl
@[simp] theorem fatalFault_err (e : ErrCode) (info : Word) (s : State) : (fatalFault e info s).err = e := rfl
@[simp] theorem fatalFault_errInfo (e : ErrCode) (info : Word) (s : State) : (fatalFault e info s).errInfo = info := rfl
@[simp] theorem fatalFault_regs (e : ErrCode) (info : Word) (s : State) : (fatalFault e info s).regs = s.regs := rfl
@[simp] theorem fatalFault_mem (e : ErrCode) (info : Word) (s : State) : (fatalFault e info s).mem = s.mem := rfl
@[simp] theorem fatalFault_inbox (e : ErrCode) (info : Word) (s : State) : (fatalFault e info s).inbox = s.inbox := rfl
@[simp] theorem fatalFault_replies (e : ErrCode) (info : Word) (s : State) : (fatalFault e info s).replies = s.replies := rfl

/-! ### done (60_exceptions.md R115) -/

@[simp] theorem done_cipher (s : State) : (done s).cipher = s.cipher := rfl
@[simp] theorem done_keyed (s : State) : (done s).keyed = s.keyed := rfl
@[simp] theorem done_fatal (s : State) : (done s).fatal = s.fatal := rfl
@[simp] theorem done_err (s : State) : (done s).err = .ok := rfl
@[simp] theorem done_errInfo (s : State) : (done s).errInfo = 0 := rfl
@[simp] theorem done_regs (s : State) : (done s).regs = s.regs := rfl
@[simp] theorem done_mem (s : State) : (done s).mem = s.mem := rfl
@[simp] theorem done_inbox (s : State) : (done s).inbox = s.inbox := rfl
@[simp] theorem done_replies (s : State) : (done s).replies = s.replies := rfl

/-! ### hostRead (42_clear_and_host_access.md R101) -/

@[simp] theorem hostRead_cipher (r : Reg) (s : State) : (hostRead r s).cipher = s.cipher := rfl
@[simp] theorem hostRead_keyed (r : Reg) (s : State) : (hostRead r s).keyed = s.keyed := rfl
@[simp] theorem hostRead_fatal (r : Reg) (s : State) : (hostRead r s).fatal = s.fatal := rfl
@[simp] theorem hostRead_err (r : Reg) (s : State) : (hostRead r s).err = s.err := rfl
@[simp] theorem hostRead_errInfo (r : Reg) (s : State) : (hostRead r s).errInfo = s.errInfo := rfl
@[simp] theorem hostRead_regs (r : Reg) (s : State) : (hostRead r s).regs = s.regs := rfl
@[simp] theorem hostRead_mem (r : Reg) (s : State) : (hostRead r s).mem = s.mem := rfl
@[simp] theorem hostRead_inbox (r : Reg) (s : State) : (hostRead r s).inbox = s.inbox := rfl
@[simp] theorem hostRead_replies (r : Reg) (s : State) : (hostRead r s).replies = s.replies ++ [readRegister r s] := rfl

/-! ### hostReset (70_reset_and_hazards.md R130) -/

@[simp] theorem hostReset_cipher (s : State) : (hostReset s).cipher = Cipher.zero := rfl
@[simp] theorem hostReset_keyed (s : State) : (hostReset s).keyed = false := rfl
@[simp] theorem hostReset_fatal (s : State) : (hostReset s).fatal = false := rfl
@[simp] theorem hostReset_err (s : State) : (hostReset s).err = .ok := rfl
@[simp] theorem hostReset_errInfo (s : State) : (hostReset s).errInfo = 0 := rfl
@[simp] theorem hostReset_regs (s : State) : (hostReset s).regs = ⟨0, 0, 0, 0, 0⟩ := rfl
@[simp] theorem hostReset_mem (s : State) : (hostReset s).mem = s.mem := rfl
@[simp] theorem hostReset_inbox (s : State) : (hostReset s).inbox = s.inbox := rfl
@[simp] theorem hostReset_replies (s : State) : (hostReset s).replies = s.replies := rfl

/-! ### hostMemoryWrite (20_memory.md R31) -/

@[simp] theorem hostMemoryWrite_cipher (a : Word) (v : Byte) (s : State) : (hostMemoryWrite a v s).cipher = s.cipher := rfl
@[simp] theorem hostMemoryWrite_keyed (a : Word) (v : Byte) (s : State) : (hostMemoryWrite a v s).keyed = s.keyed := rfl
@[simp] theorem hostMemoryWrite_fatal (a : Word) (v : Byte) (s : State) : (hostMemoryWrite a v s).fatal = s.fatal := rfl
@[simp] theorem hostMemoryWrite_err (a : Word) (v : Byte) (s : State) : (hostMemoryWrite a v s).err = s.err := rfl
@[simp] theorem hostMemoryWrite_errInfo (a : Word) (v : Byte) (s : State) : (hostMemoryWrite a v s).errInfo = s.errInfo := rfl
@[simp] theorem hostMemoryWrite_regs (a : Word) (v : Byte) (s : State) : (hostMemoryWrite a v s).regs = s.regs := rfl
@[simp] theorem hostMemoryWrite_mem (a : Word) (v : Byte) (s : State) : (hostMemoryWrite a v s).mem = s.mem.setByte a.toNat v := rfl
@[simp] theorem hostMemoryWrite_inbox (a : Word) (v : Byte) (s : State) : (hostMemoryWrite a v s).inbox = s.inbox := rfl
@[simp] theorem hostMemoryWrite_replies (a : Word) (v : Byte) (s : State) : (hostMemoryWrite a v s).replies = s.replies := rfl

/-! ### writeRegister (42_clear_and_host_access.md R102, R103): only an operand register can change -/

@[simp] theorem writeRegister_cipher (r : Reg) (v : Word) (s : State) : (writeRegister r v s).cipher = s.cipher := by cases r <;> rfl
@[simp] theorem writeRegister_keyed (r : Reg) (v : Word) (s : State) : (writeRegister r v s).keyed = s.keyed := by cases r <;> rfl
@[simp] theorem writeRegister_fatal (r : Reg) (v : Word) (s : State) : (writeRegister r v s).fatal = s.fatal := by cases r <;> rfl
@[simp] theorem writeRegister_err (r : Reg) (v : Word) (s : State) : (writeRegister r v s).err = s.err := by cases r <;> rfl
@[simp] theorem writeRegister_errInfo (r : Reg) (v : Word) (s : State) : (writeRegister r v s).errInfo = s.errInfo := by cases r <;> rfl
@[simp] theorem writeRegister_mem (r : Reg) (v : Word) (s : State) : (writeRegister r v s).mem = s.mem := by cases r <;> rfl
@[simp] theorem writeRegister_inbox (r : Reg) (v : Word) (s : State) : (writeRegister r v s).inbox = s.inbox := by cases r <;> rfl
@[simp] theorem writeRegister_replies (r : Reg) (v : Word) (s : State) : (writeRegister r v s).replies = s.replies := by cases r <;> rfl

end Sys2Proof.Machine
end

