-- ==== Sys2Proof/Laws/Memory.lean ====
section
/-! SUPPORT. The buffer memory: a read after a write, and the canonical form every memory operation keeps. -/

namespace Sys2Proof.Machine

/-- In a memory in canonical form from `lo` on, an address below `lo` is not listed. -/
theorem Memory.byteAt_below {m : Memory} {lo a : Nat} (h : m.wfFrom lo = true) (ha : a < lo) :
    m.byteAt a = Config.unlistedByte := by
  induction m generalizing lo with
  | nil => rfl
  | cons c rest ih =>
    simp only [Memory.wfFrom, Bool.and_eq_true, decide_eq_true_eq] at h
    obtain ⟨⟨⟨hlo, -⟩, -⟩, hrest⟩ := h
    have hne : ¬ c.1 = a := by omega
    simp only [Memory.byteAt, if_neg hne]
    exact ih hrest (by omega)

/-- A canonical form from `lo` on is one from any smaller bound on. -/
theorem Memory.wfFrom_mono {m : Memory} {lo lo' : Nat} (h : m.wfFrom lo = true) (hle : lo' ≤ lo) :
    m.wfFrom lo' = true := by
  cases m with
  | nil => rfl
  | cons c rest =>
    simp only [Memory.wfFrom, Bool.and_eq_true, decide_eq_true_eq] at h ⊢
    exact ⟨⟨⟨by omega, h.1.1.2⟩, h.1.2⟩, h.2⟩

/-- The byte of a cell put in front of cells that do not list its address. -/
theorem Memory.byteAt_cons {m : Memory} {a : Nat} (v : Byte) (b : Nat) (h : m.wfFrom (a + 1) = true) :
    (Memory.cons a v m).byteAt b = if b = a then v else m.byteAt b := by
  unfold Memory.cons
  split
  · rename_i hv
    split
    · rename_i hb
      rw [hv, hb, Memory.byteAt_below h (by omega)]
    · rfl
  · simp only [Memory.byteAt]
    by_cases hb : b = a
    · simp [hb]
    · have hb' : ¬ a = b := fun e => hb e.symm
      simp [hb, hb']

/-- A cell put in front of cells at higher addresses keeps the canonical form. -/
theorem Memory.wfFrom_cons {m : Memory} {lo a : Nat} (v : Byte) (hlo : lo ≤ a) (ha : a < Config.memorySize)
    (h : m.wfFrom (a + 1) = true) : (Memory.cons a v m).wfFrom lo = true := by
  unfold Memory.cons
  split
  · exact Memory.wfFrom_mono h (by omega)
  · rename_i hv
    simp [Memory.wfFrom, hlo, ha, hv, h]

/-- The bytes after a write (20_memory.md R33), in canonical form from any bound on. -/
theorem Memory.byteAt_setByte_from {m : Memory} {lo : Nat} (a : Nat) (v : Byte) (b : Nat) (h : m.wfFrom lo = true) :
    (m.setByte a v).byteAt b = if b = a then v else m.byteAt b := by
  induction m generalizing lo with
  | nil => exact Memory.byteAt_cons v b rfl
  | cons c rest ih =>
    have hc := h
    simp only [Memory.wfFrom, Bool.and_eq_true, decide_eq_true_eq] at h
    obtain ⟨⟨⟨hlo, hsize⟩, hv⟩, hrest⟩ := h
    simp only [Memory.setByte]
    split
    · rename_i hlt
      refine Memory.byteAt_cons v b ?_
      simp [Memory.wfFrom, hsize, hv, hrest, Nat.succ_le_of_lt hlt]
    · split
      · rename_i _ heq
        rw [Memory.byteAt_cons v b (heq ▸ hrest)]
        by_cases hb : b = a
        · simp [hb]
        · have hb' : ¬ c.1 = b := by omega
          simp [hb, Memory.byteAt, hb']
      · rename_i hnlt hne
        simp only [Memory.byteAt, ih hrest]
        by_cases hb : c.1 = b
        · have hb' : ¬ b = a := by omega
          simp [hb, hb']
        · simp [hb]

/-- A write keeps the canonical form from any bound at or below its address. -/
theorem Memory.wfFrom_setByte {m : Memory} {lo a : Nat} (v : Byte) (hlo : lo ≤ a) (ha : a < Config.memorySize)
    (h : m.wfFrom lo = true) : (m.setByte a v).wfFrom lo = true := by
  induction m generalizing lo with
  | nil => exact Memory.wfFrom_cons v hlo ha rfl
  | cons c rest ih =>
    simp only [Memory.wfFrom, Bool.and_eq_true, decide_eq_true_eq] at h
    obtain ⟨⟨⟨hlo', hsize⟩, hv⟩, hrest⟩ := h
    simp only [Memory.setByte]
    split
    · rename_i hlt
      refine Memory.wfFrom_cons v hlo ha ?_
      simp [Memory.wfFrom, hsize, hv, hrest, Nat.succ_le_of_lt hlt]
    · split
      · rename_i _ heq
        exact Memory.wfFrom_cons v hlo ha (heq ▸ hrest)
      · rename_i hnlt hne
        simp [Memory.wfFrom, hlo', hsize, hv, ih (by omega) hrest]

/-- A read after a write gives the byte written, and every other byte as before (20_memory.md R31, R33). -/
theorem Memory.byteAt_setByte {m : Memory} (a : Nat) (v : Byte) (b : Nat) (h : m.wf = true) :
    (m.setByte a v).byteAt b = if b = a then v else m.byteAt b :=
  Memory.byteAt_setByte_from a v b h

/-- A write keeps the canonical form. -/
theorem Memory.wf_setByte {m : Memory} {a : Nat} (v : Byte) (ha : a < Config.memorySize) (h : m.wf = true) :
    (m.setByte a v).wf = true :=
  Memory.wfFrom_setByte v (Nat.zero_le a) ha h

/-- The empty memory, which reset starts from, is canonical. -/
theorem Memory.wf_nil : Memory.wf [] = true := rfl

/-- Two canonical memories with the same bytes are the same data. -/
theorem Memory.ext_from {m n : Memory} {lo : Nat} (hm : m.wfFrom lo = true) (hn : n.wfFrom lo = true)
    (h : ∀ a, m.byteAt a = n.byteAt a) : m = n := by
  induction m generalizing n lo with
  | nil =>
    cases n with
    | nil => rfl
    | cons d rest =>
      simp only [Memory.wfFrom, Bool.and_eq_true, decide_eq_true_eq] at hn
      have := h d.1
      simp [Memory.byteAt] at this
      exact absurd this.symm hn.1.2
  | cons c rest ih =>
    have hm0 := hm
    simp only [Memory.wfFrom, Bool.and_eq_true, decide_eq_true_eq] at hm
    obtain ⟨⟨⟨hlo, hsize⟩, hv⟩, hrest⟩ := hm
    cases n with
    | nil =>
      have := h c.1
      simp [Memory.byteAt] at this
      exact absurd this hv
    | cons d rest' =>
      have hn0 := hn
      simp only [Memory.wfFrom, Bool.and_eq_true, decide_eq_true_eq] at hn
      obtain ⟨⟨⟨hlo', hsize'⟩, hv'⟩, hrest'⟩ := hn
      have haddr : c.1 = d.1 := by
        rcases Nat.lt_trichotomy c.1 d.1 with hlt | heq | hgt
        · have h1 := h c.1
          have h2 : Memory.byteAt (d :: rest') c.1 = Config.unlistedByte := by
            have : ¬ d.1 = c.1 := by omega
            simp only [Memory.byteAt, if_neg this]
            exact Memory.byteAt_below hrest' (by omega)
          rw [h2] at h1
          simp [Memory.byteAt] at h1
          exact absurd h1 hv
        · exact heq
        · have h1 := h d.1
          have h2 : Memory.byteAt (c :: rest) d.1 = Config.unlistedByte := by
            have : ¬ c.1 = d.1 := by omega
            simp only [Memory.byteAt, if_neg this]
            exact Memory.byteAt_below hrest (by omega)
          rw [h2] at h1
          simp [Memory.byteAt] at h1
          exact absurd h1.symm hv'
      have hval : c.2 = d.2 := by
        have := h c.1
        simpa [Memory.byteAt, haddr] using this
      have hcd : c = d := Prod.ext haddr hval
      subst hcd
      congr 1
      refine ih hrest hrest' fun a => ?_
      by_cases ha : c.1 = a
      · rw [Memory.byteAt_below hrest (by omega), Memory.byteAt_below hrest' (by omega)]
      · simpa [Memory.byteAt, ha] using h a

/-- Two canonical memories with the same bytes are the same data. -/
theorem Memory.ext_of_wf {m n : Memory} (hm : m.wf = true) (hn : n.wf = true) (h : ∀ a, m.byteAt a = n.byteAt a) :
    m = n :=
  Memory.ext_from hm hn h

/-! ### The memory port -/

/-- A read at an address that exists (20_memory.md R32). -/
theorem memRead_ok {a : Nat} (p : Port) (ha : a < Config.memorySize) :
    memRead a p = .ok (p.mem.byteAt a, ⟨p.mem, p.trace ++ [.read a]⟩) := by
  simp [memRead, ha]

/-- A write at an address that exists (20_memory.md R33). -/
theorem memWrite_ok {a : Nat} (v : Byte) (p : Port) (ha : a < Config.memorySize) :
    memWrite a v p = .ok ⟨p.mem.setByte a v, p.trace ++ [.write a v]⟩ := by
  simp [memWrite, ha]

end Sys2Proof.Machine
end

