-- ==== Sys2Proof/Laws/Table.lean ====
section
/-! SUPPORT. The permutation table: entries after a write and a swap, and the bijection every swap keeps. -/

namespace Sys2Proof.Machine

open Sys2Proof.Reference

/-- The entries after `S[a] <- v`. -/
theorem Table.entry_put (t : Table) (a v b : Byte) : (t.put a v).entry b = if b = a then v else t.entry b := by
  unfold Table.entry Table.put
  rw [Vector.getElem_set]
  by_cases h : b = a
  · simp [h]
  · have h' : ¬ a.toNat = b.toNat := fun e => h (BitVec.eq_of_toNat_eq e.symm)
    simp [h, h']

/-- The entries after a swap. -/
theorem Table.entry_swap (t : Table) (a b : Byte) : (t.swap a b).entry = exchange t.entry a b := by
  funext x
  simp only [Table.swap, Table.entry_put, exchange]
  by_cases hb : x = b
  · subst hb
    by_cases ha : x = a
    · subst ha; simp
    · simp [ha]
  · by_cases ha : x = a
    · subst ha; simp [hb]
    · simp [hb, ha]

/-- Two tables with the same entries are the same table. -/
theorem Table.ext_entry {t u : Table} (h : ∀ a, t.entry a = u.entry a) : t = u := by
  apply Vector.ext
  intro n hn
  have := h (BitVec.ofNat 8 n)
  simpa [Table.entry, Nat.mod_eq_of_lt hn] using this

/-- The entries of the table of a function. -/
@[simp] theorem Table.entry_tableOf (p : Perm) : Table.entry (tableOf p) = p := by
  funext a
  delta tableOf
  simp [Table.entry]

/-- A table is the table of its entries. -/
@[simp] theorem Table.tableOf_entry (t : Table) : tableOf t.entry = t :=
  Table.ext_entry fun a => by rw [Table.entry_tableOf]

/-- The identity fill (40_key_schedule.md R70). -/
@[simp] theorem Table.entry_identity : identityTable.entry = id := by
  funext a
  simp [Table.entry, identityTable]

/-- The zeroed table. -/
@[simp] theorem Table.entry_zero (a : Byte) : Cipher.zero.table.entry a = 0 := by
  simp [Table.entry, Cipher.zero]

/-- An exchange is the table after a transposition of indices. -/
theorem exchange_eq_comp_swap (p : Perm) (a b : Byte) : exchange p a b = p ∘ Equiv.swap a b := by
  funext x
  simp only [exchange, Function.comp, Equiv.swap_apply_def]
  split
  · rfl
  · split <;> rfl

/-- One exchange maps a bijection to a bijection (40_key_schedule.md R71, 41_keystream.md R81). -/
theorem exchange_bijective {p : Perm} (a b : Byte) (h : Function.Bijective p) : Function.Bijective (exchange p a b) := by
  rw [exchange_eq_comp_swap]
  exact h.comp (Equiv.swap a b).bijective

/-- One swap maps a bijection to a bijection. -/
theorem Table.Bijection.swap {t : Table} (a b : Byte) (h : t.Bijection) : (t.swap a b).Bijection := by
  unfold Table.Bijection
  rw [Table.entry_swap]
  exact exchange_bijective a b h

/-- The identity table is a bijection. -/
theorem Table.Bijection.identity : identityTable.Bijection := by
  unfold Table.Bijection
  rw [Table.entry_identity]
  exact Function.bijective_id

/-- The key schedule's table is a bijection after any number of rounds (10_state.md R20). -/
theorem schedule_bijective (key : Nat → Byte) (n : Nat) : Function.Bijective (schedule key n).1 := by
  induction n with
  | zero => exact Function.bijective_id
  | succ n ih => exact exchange_bijective _ _ ih

/-- The generator's table stays a bijection (41_keystream.md R91). -/
theorem advanceBy_bijective {m : Rc4} (n : Nat) (h : Function.Bijective m.perm) :
    Function.Bijective (advanceBy n m).perm := by
  induction n with
  | zero => exact h
  | succ n ih => exact exchange_bijective _ _ ih

/-- A Cipher State is its functional view. -/
@[simp] theorem cipherOf_view (c : Cipher) : cipherOf (view c) = c := by
  simp [cipherOf, view]

/-- A functional view is that of its Cipher State. -/
@[simp] theorem view_cipherOf (m : Rc4) : view (cipherOf m) = m := by
  simp [cipherOf, view]

/-- The schedule depends on the key bytes of its rounds only (40_key_schedule.md R70, R72). -/
theorem schedule_congr {key key' : Nat → Byte} {n : Nat} (h : ∀ r, r < n → key r = key' r) :
    schedule key n = schedule key' n := by
  induction n with
  | zero => rfl
  | succ n ih => simp only [schedule, ih fun r hr => h r (by omega), h n (by omega)]

/-- Steps add up (41_keystream.md R86). -/
theorem advanceBy_add (m n : Nat) (x : Rc4) : advanceBy (m + n) x = advanceBy m (advanceBy n x) := by
  induction m with
  | zero => simp [advanceBy]
  | succ m ih => rw [Nat.succ_add]; simp only [advanceBy, ih]

/-- The keystream from a state some steps on is the keystream from further on (41_keystream.md R88). -/
theorem keystream_advanceBy (x : Rc4) (m n : Nat) : keystream (advanceBy m x) n = keystream x (m + n) := by
  unfold keystream
  rw [← advanceBy_add]
  congr 2
  omega

end Sys2Proof.Machine
end

