-- ==== Sys2Proof/Laws/KeySchedule.lean ====
section
/-! SUPPORT. What the rounds of INIT do, in terms of the functional key schedule. -/

namespace Sys2Proof.Machine

open Sys2Proof.Reference

/-- One round whose key byte exists: the accumulator, the swap, one read (40_key_schedule.md R71, R72). -/
theorem ksaRound_ok {k keyaddr r : Nat} (x : Schedule) (h : keyaddr + r % k < Config.memorySize) :
    ksaRound k keyaddr r x =
      .ok ⟨x.table.swap (BitVec.ofNat 8 r)
            (x.acc + x.table.entry (BitVec.ofNat 8 r) + x.port.mem.byteAt (keyaddr + r % k)),
          x.acc + x.table.entry (BitVec.ofNat 8 r) + x.port.mem.byteAt (keyaddr + r % k),
          ⟨x.port.mem, x.port.trace ++ [.read (keyaddr + r % k)]⟩⟩ := by
  simp [ksaRound, keyByteAddr, memRead_ok _ h]

/-- The key bytes of a legal key in range all exist (40_key_schedule.md R72). -/
theorem keyByte_inRange {k keyaddr : Nat} (r : Nat) (hk : 1 ≤ k) (hr : keyaddr + k ≤ 2 ^ 32) :
    keyaddr + r % k < Config.memorySize := by
  have : r % k < k := Nat.mod_lt r (by omega)
  unfold Config.memorySize
  omega

/-- `n` rounds from round `r` on continue the functional schedule: the table, the accumulator, the memory unchanged, `n` reads. -/
theorem ksaRounds_ok {k keyaddr : Nat} (n r : Nat) (x : Schedule) (hk : 1 ≤ k) (hr : keyaddr + k ≤ 2 ^ 32)
    (hx : (x.table.entry, x.acc) = schedule (keyOf x.port.mem keyaddr k) r) :
    ∃ y, ksaRounds k keyaddr n r x = .ok y ∧ (y.table.entry, y.acc) = schedule (keyOf x.port.mem keyaddr k) (r + n) ∧
      y.port = ⟨x.port.mem, x.port.trace ++ (List.range' r n).map fun q => .read (keyaddr + q % k)⟩ := by
  induction n generalizing r x with
  | zero => exact ⟨x, rfl, hx, by simp⟩
  | succ n ih =>
    have hround := ksaRound_ok (r := r) x (keyByte_inRange r hk hr)
    obtain ⟨hperm, hacc⟩ := Prod.mk.inj hx
    have hnext := ih (r + 1) ⟨x.table.swap (BitVec.ofNat 8 r)
            (x.acc + x.table.entry (BitVec.ofNat 8 r) + x.port.mem.byteAt (keyaddr + r % k)),
          x.acc + x.table.entry (BitVec.ofNat 8 r) + x.port.mem.byteAt (keyaddr + r % k),
          ⟨x.port.mem, x.port.trace ++ [.read (keyaddr + r % k)]⟩⟩ (by
            simp only [schedule, Table.entry_swap, ← hperm, ← hacc, keyOf])
    obtain ⟨y, hy, hval, hport⟩ := hnext
    refine ⟨y, ?_, ?_, ?_⟩
    · simp only [ksaRounds, hround, hy]
    · rw [hval, Nat.add_right_comm, Nat.add_assoc]
    · rw [hport, List.range'_succ]
      simp

/-- The 256 rounds of a successful INIT. -/
theorem ksaRounds_start {s : State} (h : InitRuns s) :
    ∃ y, ksaRounds (keylenOf s) (keyaddrOf s) Config.rounds 0 (scheduleStart s) = .ok y ∧
      y.table = (scheduled s.mem (keyaddrOf s) (keylenOf s)).table ∧ y.port.trace = initTraffic s := by
  obtain ⟨y, hy, hval, hport⟩ := ksaRounds_ok Config.rounds 0 (scheduleStart s) h.keyLegal.1 h.keyInRange (by
    simp [scheduleStart, schedule])
  refine ⟨y, hy, ?_, ?_⟩
  · have hentry : y.table.entry = (schedule (keyOf s.mem (keyaddrOf s) (keylenOf s)) 256).1 := by
      simpa [scheduleStart, portOf, Config.rounds] using congrArg Prod.fst hval
    rw [scheduled, ← hentry, Table.tableOf_entry]
  · rw [hport, initTraffic, List.range_eq_range']
    simp [scheduleStart, portOf, Config.rounds]

end Sys2Proof.Machine
end

