-- ==== Sys2Proof/Laws/Keystream.lean ====
section
/-! SUPPORT. What the bytes of XFORM do, in terms of the functional generator; what the Overlap Guard says. -/

namespace Sys2Proof.Machine

open Sys2Proof.Reference

/-- One step of the generator (41_keystream.md R81): the advanced state and its keystream byte. The machine adds the two
entries read before the swap, the functional view the two read after it. -/
theorem prgaStep_spec (c : Cipher) :
    view (prgaStep c).1 = advance (view c) ∧ (prgaStep c).2 = keystream (view c) 0 := by
  have hview : view (prgaStep c).1 = advance (view c) := by
    simp [prgaStep, view, advance, Table.entry_swap]
  refine ⟨hview, ?_⟩
  unfold keystream
  simp only [advanceBy, output, ← hview]
  simp only [prgaStep, view, Table.entry_swap]
  congr 1
  generalize c.j + c.table.entry (c.i + 1) = j
  generalize c.i + 1 = i
  by_cases h : j = i
  · subst h; simp [exchange]
  · simp [exchange, h, BitVec.add_comm]

/-- One byte whose two addresses exist (41_keystream.md R82): read, xor, write. -/
theorem xorByte_ok {sa da : Nat} (key : Byte) (p : Port) (hs : sa < Config.memorySize) (hd : da < Config.memorySize) :
    xorByte sa da key p =
      .ok ⟨p.mem.setByte da (p.mem.byteAt sa ^^^ key),
        p.trace ++ [.read sa, .write da (p.mem.byteAt sa ^^^ key)]⟩ := by
  simp [xorByte, memRead_ok _ hs, memWrite_ok _ _ hd]

/-- The first step, then the others. -/
theorem advanceBy_advance (n : Nat) (m : Rc4) : advanceBy n (advance m) = advanceBy (n + 1) m :=
  (advanceBy_add n 1 m).symm

/-- The keystream after one step. -/
theorem keystream_advance (m : Rc4) (n : Nat) : keystream (advance m) n = keystream m (n + 1) := by
  simp only [keystream, advanceBy_advance]

/-- `count` bytes from byte `n` on, with both ranges in the address space and the two admitted by the guard: the state
advances `count` steps, each destination byte becomes the source byte xor its keystream byte, every other byte stays,
and each byte's read comes before its write. -/
theorem xformBytes_ok {src dst : Nat} (count n : Nat) (x : Transform) (hwf : x.port.mem.wf = true)
    (hs : src + n + count ≤ 2 ^ 32) (hd : dst + n + count ≤ 2 ^ 32)
    (hadm : src = dst ∨ src + count ≤ dst ∨ dst + count ≤ src) :
    ∃ y, xformBytes src dst count n x = .ok y ∧ view y.cipher = advanceBy count (view x.cipher) ∧
      y.port.mem.wf = true ∧
      (∀ a, y.port.mem.byteAt a =
        if dst + n ≤ a ∧ a < dst + n + count then
          x.port.mem.byteAt (src + (a - dst)) ^^^ keystream (view x.cipher) (a - dst - n)
        else x.port.mem.byteAt a) ∧
      y.port.trace = x.port.trace ++ (List.range count).flatMap fun p =>
        [.read (src + n + p),
         .write (dst + n + p) (x.port.mem.byteAt (src + n + p) ^^^ keystream (view x.cipher) p)] := by
  induction count generalizing n x with
  | zero => exact ⟨x, rfl, rfl, hwf, fun a => by rw [if_neg (by omega)], by simp⟩
  | succ count ih =>
    have hsa : src + n < Config.memorySize := by unfold Config.memorySize; omega
    have hda : dst + n < Config.memorySize := by unfold Config.memorySize; omega
    obtain ⟨hview, hkey⟩ := prgaStep_spec x.cipher
    let v := x.port.mem.byteAt (src + n) ^^^ keystream (view x.cipher) 0
    let z : Transform := ⟨(prgaStep x.cipher).1,
      ⟨x.port.mem.setByte (dst + n) v, x.port.trace ++ [.read (src + n), .write (dst + n) v]⟩⟩
    have hbyte : xformByte src dst n x = .ok z := by
      simp [xformByte, xorByte_ok _ _ hsa hda, hkey, z, v]
    have hset : ∀ a, z.port.mem.byteAt a = if a = dst + n then v else x.port.mem.byteAt a :=
      fun a => Memory.byteAt_setByte (dst + n) v a hwf
    obtain ⟨y, hy, hcipher, hywf, hmem, htrace⟩ :=
      ih (n + 1) z (Memory.wf_setByte _ hda hwf) (by omega) (by omega) (by omega)
    have hzview : view z.cipher = advance (view x.cipher) := hview
    simp only [hset, hzview, keystream_advance, advanceBy_advance] at hcipher hmem htrace
    refine ⟨y, by simp only [xformBytes, hbyte, hy], hcipher, hywf, fun a => ?_, ?_⟩
    · rw [hmem a]
      by_cases hin : dst + (n + 1) ≤ a ∧ a < dst + (n + 1) + count
      · rw [if_pos hin, if_neg (by omega), if_pos (by omega)]
        congr 2
        omega
      · rw [if_neg hin]
        by_cases ha : a = dst + n
        · rw [if_pos ha, if_pos (by omega), ha]
          simp only [v]
          congr 2
          · congr 1; omega
          · omega
        · rw [if_neg ha, if_neg (by omega)]
    · rw [htrace, List.range_succ_eq_map]
      simp only [z, List.flatMap_cons, List.flatMap_map, List.append_assoc, Nat.add_zero, List.cons_append, List.nil_append]
      congr 3
      refine List.flatMap_congr fun p hp => ?_
      have hp' := List.mem_range.mp hp
      have hne : ¬ src + (n + 1) + p = dst + n := by omega
      rw [if_neg hne, show src + (n + 1) + p = src + n + (p + 1) by omega,
        show dst + (n + 1) + p = dst + n + (p + 1) by omega]

/-- The Overlap Guard reports exactly what is not admitted (41_keystream.md R83). -/
theorem partialOverlap_eq_false {src dst len : Nat} :
    partialOverlap src dst len = false ↔ len = 0 ∨ buffersAdmitted src dst len := by
  simp only [partialOverlap, buffersAdmitted, Bool.and_eq_false_iff, Bool.not_eq_false', decide_eq_true_eq,
    decide_eq_false_iff_not]
  omega

/-- The bytes of a transform that passes its tests. -/
theorem xformBytes_start {s : State} (h : XformRuns s) (hwf : s.mem.wf = true) :
    ∃ y, xformBytes (srcOf s) (dstOf s) (lenOf s) 0 ⟨s.cipher, portOf s⟩ = .ok y ∧
      y.cipher = cipherOf (advanceBy (lenOf s) (view s.cipher)) ∧ y.port.mem.wf = true ∧
      (∀ a, y.port.mem.byteAt a =
        if dstOf s ≤ a ∧ a < dstOf s + lenOf s then outputByte s (a - dstOf s) else s.mem.byteAt a) ∧
      y.port.trace = xformTraffic s := by
  obtain ⟨y, hy, hcipher, hywf, hmem, htrace⟩ := xformBytes_ok (src := srcOf s) (dst := dstOf s) (lenOf s) 0
    ⟨s.cipher, portOf s⟩ hwf h.srcInRange h.dstInRange (by
      have := h.admitted
      unfold buffersAdmitted at this
      omega)
  refine ⟨y, hy, ?_, hywf, fun a => ?_, ?_⟩
  · rw [← hcipher, cipherOf_view]
  · rw [hmem a]
    simp [portOf, outputByte]
  · rw [htrace]
    simp [portOf, xformTraffic, outputByte]

end Sys2Proof.Machine
end

