-- ==== Sys2Proof/Laws/Commands.lean ====
section
/-! SUPPORT. Everything each command can do, one lemma per command: the cases, with the state and the accesses of each. -/

namespace Sys2Proof.Machine

open Sys2Proof.Reference

/-! ### The tests as propositions -/

theorem keyLengthLegal_eq_true {k : Nat} : keyLengthLegal k = true ↔ 1 ≤ k ∧ k ≤ 256 := by
  simp only [keyLengthLegal, Bool.and_eq_true, decide_eq_true_eq]
  exact Iff.rfl

theorem inRange_eq_true {base len : Nat} : inRange base len = true ↔ base + len ≤ 2 ^ 32 := by
  simp only [inRange, decide_eq_true_eq]
  exact Iff.rfl

theorem partialOverlap_eq_true {src dst len : Nat} :
    partialOverlap src dst len = true ↔ src ≠ dst ∧ src < dst + len ∧ dst < src + len := by
  simp only [partialOverlap, Bool.and_eq_true, Bool.not_eq_true', decide_eq_true_eq, decide_eq_false_iff_not]
  omega

/-- The tests of INIT pass exactly in the states where it runs (40_key_schedule.md R70). -/
theorem initRuns_iff {s : State} :
    InitRuns s ↔ s.fatal = false ∧ (1 ≤ keylenOf s ∧ keylenOf s ≤ 256) ∧ keyaddrOf s + keylenOf s ≤ 2 ^ 32 :=
  ⟨fun h => ⟨h.notFaulted, h.keyLegal, h.keyInRange⟩, fun h => ⟨h.1, h.2.1, h.2.2⟩⟩

/-- The tests of XFORM pass exactly in the states where it runs (41_keystream.md R80). -/
theorem xformRuns_iff {s : State} :
    XformRuns s ↔ s.fatal = false ∧ s.keyed = true ∧ srcOf s + lenOf s ≤ 2 ^ 32 ∧ dstOf s + lenOf s ≤ 2 ^ 32 ∧
      partialOverlap (srcOf s) (dstOf s) (lenOf s) = false := by
  rw [partialOverlap_eq_false]
  exact ⟨fun h => ⟨h.notFaulted, h.isKeyed, h.srcInRange, h.dstInRange, h.admitted⟩,
    fun h => ⟨h.1, h.2.1, h.2.2.1, h.2.2.2.1, h.2.2.2.2⟩⟩

/-- The conditions of INIT depend on `FATAL` and the operand registers only. -/
theorem InitRuns.of_regs {s t : State} (h : InitRuns s) (hf : t.fatal = s.fatal) (hr : t.regs = s.regs) : InitRuns t := by
  obtain ⟨h1, h2, h3⟩ := h
  exact ⟨hf.trans h1, by simpa only [keylenOf, hr] using h2, by simpa only [keylenOf, keyaddrOf, hr] using h3⟩

/-- The conditions of XFORM depend on the flags and the operand registers only. -/
theorem XformRuns.of_regs {s t : State} (h : XformRuns s) (hf : t.fatal = s.fatal) (hk : t.keyed = s.keyed)
    (hr : t.regs = s.regs) : XformRuns t := by
  obtain ⟨h1, h2, h3, h4, h5⟩ := h
  exact ⟨hf.trans h1, hk.trans h2, by simpa only [srcOf, lenOf, hr] using h3, by simpa only [dstOf, lenOf, hr] using h4,
    by simpa only [srcOf, dstOf, lenOf, hr] using h5⟩

/-! ### INIT -/

/-- Everything INIT can do. -/
theorem runInit_cases (s : State) :
    (s.fatal = true ∧ runInit s = .ok (s, [])) ∨
    (s.fatal = false ∧ ¬ (1 ≤ keylenOf s ∧ keylenOf s ≤ 256) ∧
      runInit s = .ok (refuse .keysize s.regs.keyLen s, [])) ∨
    (s.fatal = false ∧ (1 ≤ keylenOf s ∧ keylenOf s ≤ 256) ∧ ¬ keyaddrOf s + keylenOf s ≤ 2 ^ 32 ∧
      runInit s = .ok (refuse .range 0 s, [])) ∨
    (InitRuns s ∧ runInit s =
      .ok (done { s with cipher := scheduled s.mem (keyaddrOf s) (keylenOf s), keyed := true }, initTraffic s)) := by
  rw [← keyLengthLegal_eq_true, ← inRange_eq_true]
  cases hf : s.fatal
  case true => exact .inl ⟨rfl, by simp [runInit, hf]⟩
  cases hk : keyLengthLegal (keylenOf s)
  case false => exact .inr (.inl ⟨rfl, by simp, by simp [runInit, hf, hk]⟩)
  cases hr : inRange (keyaddrOf s) (keylenOf s)
  case false => exact .inr (.inr (.inl ⟨rfl, rfl, by simp, by simp [runInit, hf, hk, hr]⟩))
  have hruns := initRuns_iff.mpr ⟨hf, keyLengthLegal_eq_true.mp hk, inRange_eq_true.mp hr⟩
  obtain ⟨y, hy, htable, htrace⟩ := ksaRounds_start hruns
  exact .inr (.inr (.inr ⟨hruns, by simp [runInit, hf, hk, hr, hy, htable, htrace, scheduled]⟩))

/-- An INIT that passes its tests. -/
theorem runInit_runs {s : State} (h : InitRuns s) :
    runInit s =
      .ok (done { s with cipher := scheduled s.mem (keyaddrOf s) (keylenOf s), keyed := true }, initTraffic s) := by
  rcases runInit_cases s with ⟨hf, -⟩ | ⟨-, hk, -⟩ | ⟨-, -, hr, -⟩ | ⟨-, hrun⟩
  · simp [h.notFaulted] at hf
  · exact absurd h.keyLegal hk
  · exact absurd h.keyInRange hr
  · exact hrun

/-- Everything a next state of INIT can be. -/
theorem execInit_next {s t : State} (h : exec .init s = .next t) :
    (s.fatal = true ∧ t = s) ∨
    (s.fatal = false ∧ ¬ (1 ≤ keylenOf s ∧ keylenOf s ≤ 256) ∧ t = refuse .keysize s.regs.keyLen s) ∨
    (s.fatal = false ∧ (1 ≤ keylenOf s ∧ keylenOf s ≤ 256) ∧ ¬ keyaddrOf s + keylenOf s ≤ 2 ^ 32 ∧
      t = refuse .range 0 s) ∨
    (InitRuns s ∧ t = done { s with cipher := scheduled s.mem (keyaddrOf s) (keylenOf s), keyed := true }) := by
  change outcomeOf (runInit s) = _ at h
  rcases runInit_cases s with ⟨hf, hrun⟩ | ⟨hf, hk, hrun⟩ | ⟨hf, hk, hr, hrun⟩ | ⟨hruns, hrun⟩ <;>
    rw [hrun] at h <;> have ht := (Host.Outcome.next.inj h).symm
  · exact .inl ⟨hf, ht⟩
  · exact .inr (.inl ⟨hf, hk, ht⟩)
  · exact .inr (.inr (.inl ⟨hf, hk, hr, ht⟩))
  · exact .inr (.inr (.inr ⟨hruns, ht⟩))

/-! ### XFORM -/

/-- The bytes of XFORM never leave the address space, whatever the memory's form (41_keystream.md R92). -/
theorem xformBytes_total {src dst : Nat} (count n : Nat) (x : Transform) (hs : src + n + count ≤ 2 ^ 32)
    (hd : dst + n + count ≤ 2 ^ 32) : ∃ y, xformBytes src dst count n x = .ok y := by
  induction count generalizing n x with
  | zero => exact ⟨x, rfl⟩
  | succ count ih =>
    have hsa : src + n < Config.memorySize := by unfold Config.memorySize; omega
    have hda : dst + n < Config.memorySize := by unfold Config.memorySize; omega
    simp only [xformBytes, xformByte, xorByte_ok _ _ hsa hda]
    exact ih (n + 1) _ (by omega) (by omega)

/-- The table stays a bijection through the bytes of XFORM, whatever the memory's form (41_keystream.md R91). -/
theorem xformBytes_bijection {src dst count n : Nat} {x y : Transform} (h : xformBytes src dst count n x = .ok y)
    (hb : x.cipher.table.Bijection) : y.cipher.table.Bijection := by
  induction count generalizing n x with
  | zero => cases h; exact hb
  | succ count ih =>
    simp only [xformBytes] at h
    split at h
    · cases h
    · rename_i z hz
      refine ih h ?_
      simp only [xformByte] at hz
      split at hz <;> cases hz
      exact hb.swap _ _

/-- Everything XFORM can do but for its bytes, whatever the memory's form: the case that runs is `xformBytes`. -/
theorem runXform_cases (s : State) :
    (s.fatal = true ∧ runXform s = .ok (s, [])) ∨
    (s.fatal = false ∧ s.keyed = false ∧ runXform s = .ok (refuse .notkeyed 0 s, [])) ∨
    (s.fatal = false ∧ s.keyed = true ∧ ¬ (srcOf s + lenOf s ≤ 2 ^ 32 ∧ dstOf s + lenOf s ≤ 2 ^ 32) ∧
      runXform s = .ok (refuse .range 0 s, [])) ∨
    (s.fatal = false ∧ s.keyed = true ∧ (srcOf s + lenOf s ≤ 2 ^ 32 ∧ dstOf s + lenOf s ≤ 2 ^ 32) ∧
      partialOverlap (srcOf s) (dstOf s) (lenOf s) = true ∧ runXform s = .ok (fatalFault .overlap 0 s, [])) ∨
    (XformRuns s ∧ ∃ x, xformBytes (srcOf s) (dstOf s) (lenOf s) 0 ⟨s.cipher, portOf s⟩ = .ok x ∧
      runXform s = .ok (done { s with cipher := x.cipher, mem := x.port.mem }, x.port.trace)) := by
  rw [← inRange_eq_true, ← inRange_eq_true]
  cases hf : s.fatal
  case true => exact .inl ⟨rfl, by simp [runXform, hf]⟩
  cases hk : s.keyed
  case false => exact .inr (.inl ⟨rfl, rfl, by simp [runXform, hf, hk]⟩)
  cases hs : inRange (srcOf s) (lenOf s)
  case false => exact .inr (.inr (.inl ⟨rfl, rfl, by simp, by simp [runXform, hf, hk, hs]⟩))
  cases hd : inRange (dstOf s) (lenOf s)
  case false => exact .inr (.inr (.inl ⟨rfl, rfl, by simp, by simp [runXform, hf, hk, hs, hd]⟩))
  cases ho : partialOverlap (srcOf s) (dstOf s) (lenOf s)
  case true => exact .inr (.inr (.inr (.inl ⟨rfl, rfl, ⟨rfl, rfl⟩, rfl, by simp [runXform, hf, hk, hs, hd, ho]⟩)))
  have hruns := xformRuns_iff.mpr ⟨hf, hk, inRange_eq_true.mp hs, inRange_eq_true.mp hd, ho⟩
  obtain ⟨x, hx⟩ := xformBytes_total (src := srcOf s) (dst := dstOf s) (lenOf s) 0 ⟨s.cipher, portOf s⟩ hruns.srcInRange hruns.dstInRange
  exact .inr (.inr (.inr (.inr ⟨hruns, x, hx, by simp [runXform, hf, hk, hs, hd, ho, hx]⟩)))

/-- A transform that passes its tests, over a canonical memory: the state advanced, the destination bytes, the accesses. -/
theorem runXform_runs {s : State} (h : XformRuns s) (hwf : s.mem.wf = true) :
    ∃ m : Memory, runXform s =
        .ok (done { s with cipher := cipherOf (advanceBy (lenOf s) (view s.cipher)), mem := m }, xformTraffic s) ∧
      m.wf = true ∧
      ∀ a, m.byteAt a = if dstOf s ≤ a ∧ a < dstOf s + lenOf s then outputByte s (a - dstOf s) else s.mem.byteAt a := by
  obtain ⟨y, hy, hcipher, hywf, hmem, htrace⟩ := xformBytes_start h hwf
  obtain ⟨hf, hk, hs, hd, ho⟩ := xformRuns_iff.mp h
  refine ⟨y.port.mem, ?_, hywf, hmem⟩
  simp [runXform, hf, hk, inRange_eq_true.mpr hs, inRange_eq_true.mpr hd, ho, hy, hcipher, htrace]

/-- Everything a next state of XFORM can be. -/
theorem execXform_next {s t : State} (h : exec .xform s = .next t) :
    (s.fatal = true ∧ t = s) ∨
    (s.fatal = false ∧ s.keyed = false ∧ t = refuse .notkeyed 0 s) ∨
    (s.fatal = false ∧ s.keyed = true ∧ ¬ (srcOf s + lenOf s ≤ 2 ^ 32 ∧ dstOf s + lenOf s ≤ 2 ^ 32) ∧
      t = refuse .range 0 s) ∨
    (s.fatal = false ∧ s.keyed = true ∧ (srcOf s + lenOf s ≤ 2 ^ 32 ∧ dstOf s + lenOf s ≤ 2 ^ 32) ∧
      partialOverlap (srcOf s) (dstOf s) (lenOf s) = true ∧ t = fatalFault .overlap 0 s) ∨
    (XformRuns s ∧ ∃ x, xformBytes (srcOf s) (dstOf s) (lenOf s) 0 ⟨s.cipher, portOf s⟩ = .ok x ∧
      t = done { s with cipher := x.cipher, mem := x.port.mem }) := by
  change outcomeOf (runXform s) = _ at h
  rcases runXform_cases s with ⟨hf, hrun⟩ | ⟨hf, hk, hrun⟩ | ⟨hf, hk, hr, hrun⟩ | ⟨hf, hk, hr, ho, hrun⟩ |
      ⟨hruns, x, hx, hrun⟩ <;> rw [hrun] at h <;> have ht := (Host.Outcome.next.inj h).symm
  · exact .inl ⟨hf, ht⟩
  · exact .inr (.inl ⟨hf, hk, ht⟩)
  · exact .inr (.inr (.inl ⟨hf, hk, hr, ht⟩))
  · exact .inr (.inr (.inr (.inl ⟨hf, hk, hr, ho, ht⟩)))
  · exact .inr (.inr (.inr (.inr ⟨hruns, x, hx, ht⟩)))

/-! ### CLEAR -/

/-- Everything CLEAR can do. -/
theorem runClear_cases (s : State) :
    (s.fatal = true ∧ runClear s = .ok (s, [])) ∨
    (s.fatal = false ∧ runClear s = .ok (done { s with cipher := Cipher.zero, keyed := false }, [])) := by
  cases hf : s.fatal
  case true => exact .inl ⟨rfl, by simp [runClear, hf]⟩
  exact .inr ⟨rfl, by simp [runClear, hf]⟩

/-- Everything a next state of CLEAR can be. -/
theorem execClear_next {s t : State} (h : exec .clear s = .next t) :
    (s.fatal = true ∧ t = s) ∨
    (s.fatal = false ∧ t = done { s with cipher := Cipher.zero, keyed := false }) := by
  change outcomeOf (runClear s) = _ at h
  rcases runClear_cases s with ⟨hf, hrun⟩ | ⟨hf, hrun⟩ <;> rw [hrun] at h <;>
    have ht := (Host.Outcome.next.inj h).symm
  · exact .inl ⟨hf, ht⟩
  · exact .inr ⟨hf, ht⟩

end Sys2Proof.Machine
end

