-- ==== Sys2Proof/Laws/HostPort.lean ====
section
/-! SUPPORT. Decoding as three equalities, and everything a host event can do. -/

namespace Sys2Proof.Machine

/-- The masks are all ones, so a word selects a command by equality (30_encoding.md R52). -/
theorem decode_eq (w : Word) :
    decode w = if w = 1 then .ok .init else if w = 2 then .ok .xform else if w = 3 then .ok .clear
      else .error (.illegal w) := by
  have hmask : ∀ v : Word, w &&& 0xFFFFFFFF#32 = v ↔ w = v := fun v => by
    rw [show (0xFFFFFFFF#32 : Word) = BitVec.allOnes 32 from rfl, BitVec.and_allOnes]
  simp only [decode, opcodeRows, List.find?]
  by_cases h1 : w = 1
  · subst h1; rfl
  by_cases h2 : w = 2
  · subst h2; rfl
  by_cases h3 : w = 3
  · subst h3; rfl
  have e1 : (w &&& 0xFFFFFFFF == (1 : Word)) = false := by simpa using fun h => h1 ((hmask _).mp h)
  have e2 : (w &&& 0xFFFFFFFF == (2 : Word)) = false := by simpa using fun h => h2 ((hmask _).mp h)
  have e3 : (w &&& 0xFFFFFFFF == (3 : Word)) = false := by simpa using fun h => h3 ((hmask _).mp h)
  simp only [h1, h2, h3, if_false]
  rw [show ((0x00000001 : Word)) = 1 from rfl, e1]
  simp only [e2, e3]

/-- The value of STATUS as a number (10_state.md R23). -/
theorem statusWord_toNat (s : State) :
    (statusWord s).toNat = s.err.code.toNat * 16 + s.fatal.toNat * 2 + s.keyed.toNat := by
  have h : ∀ (k f : Bool) (e : ErrCode),
      ((0 : BitVec 24) ++ (e.code ++ ((0 : BitVec 2) ++ (BitVec.ofBool f ++ BitVec.ofBool k)))).toNat =
        e.code.toNat * 16 + f.toNat * 2 + k.toNat := by
    intro k f e
    cases k <;> cases f <;> cases e <;> decide
  exact h s.keyed s.fatal s.err

/-- What a host write to CMD does in a block that is not faulted: the command runs (30_encoding.md R58). -/
theorem commandWrite_ok {w : Word} {i : Instr} {s : State} (hf : s.fatal = false) (hd : decode w = .ok i) :
    commandWrite w s = exec i s := by
  simp [commandWrite, hf, hd]

/-- What a host write of an illegal word to CMD does in a block that is not faulted (30_encoding.md R54, R58). -/
theorem commandWrite_illegal {w v : Word} {s : State} (hf : s.fatal = false) (hd : decode w = .error (.illegal v)) :
    commandWrite w s = .next (refuse .illegal v s) := by
  simp [commandWrite, hf, hd]

/-- A write to a register other than CMD stores in an operand register, or is ignored (42_clear_and_host_access.md R102, R103). -/
theorem hostWrite_register {r : Reg} (v : Word) (s : State) (hr : r ≠ .cmd) :
    hostWrite r v s = .next (if s.fatal then s else writeRegister r v s) := by
  cases r <;> first | exact absurd rfl hr | (simp only [hostWrite]; split <;> rfl)

/-- In the faulted state every host write is ignored (60_exceptions.md R119). -/
theorem hostWrite_faulted {r : Reg} (v : Word) {s : State} (hf : s.fatal = true) : hostWrite r v s = .next s := by
  cases r <;> simp [hostWrite, commandWrite, hf]

/-- A step with an event waiting is that event. -/
theorem step_cons {s : State} {e : HostEvent} {rest : List HostEvent} (h : s.inbox = e :: rest) :
    step s = perform e { s with inbox := rest } := by
  simp [step, nextEvent, h]

/-- Everything a step with an event waiting can do, with `u` the state the event finds. -/
theorem step_next {s t : State} {e : HostEvent} {rest : List HostEvent} (h : s.inbox = e :: rest)
    (ht : step s = .next t) :
    ∃ u, u = { s with inbox := rest } ∧ (
      (∃ r v, e = .transaction (.write r v) ∧ s.fatal = true ∧ t = u) ∨
      (∃ w i, e = .transaction (.write .cmd w) ∧ s.fatal = false ∧ decode w = .ok i ∧ exec i u = .next t) ∨
      (∃ w v, e = .transaction (.write .cmd w) ∧ s.fatal = false ∧ decode w = .error (.illegal v) ∧
        t = refuse .illegal v u) ∨
      (∃ r v, e = .transaction (.write r v) ∧ r ≠ .cmd ∧ s.fatal = false ∧ t = writeRegister r v u) ∨
      (∃ r, e = .transaction (.read r) ∧ t = hostRead r u) ∨
      (e = .transaction .reset ∧ t = hostReset u) ∨
      (∃ a v, e = .memoryWrite a v ∧ t = hostMemoryWrite a v u)) := by
  rw [step_cons h] at ht
  refine ⟨{ s with inbox := rest }, rfl, ?_⟩
  generalize hu : ({ s with inbox := rest } : State) = u at ht ⊢
  have hf : s.fatal = u.fatal := hu ▸ rfl
  rw [hf]
  rcases e with (⟨r, v⟩ | r | _) | ⟨a, v⟩
  · change hostWrite r v u = _ at ht
    cases hfu : u.fatal
    case true =>
      rw [hostWrite_faulted v hfu] at ht
      cases ht
      exact .inl ⟨r, v, rfl, rfl, rfl⟩
    by_cases hr : r = .cmd
    · subst hr
      change commandWrite v u = _ at ht
      cases hd : decode v with
      | ok i => exact .inr (.inl ⟨v, i, rfl, rfl, hd, commandWrite_ok hfu hd ▸ ht⟩)
      | error bad =>
        obtain ⟨w⟩ := bad
        rw [commandWrite_illegal hfu hd] at ht
        cases ht
        exact .inr (.inr (.inl ⟨v, w, rfl, rfl, hd, rfl⟩))
    · rw [hostWrite_register v u hr, hfu] at ht
      cases ht
      exact .inr (.inr (.inr (.inl ⟨r, v, rfl, hr, rfl, rfl⟩)))
  · cases ht
    exact .inr (.inr (.inr (.inr (.inl ⟨r, rfl, rfl⟩))))
  · cases ht
    exact .inr (.inr (.inr (.inr (.inr (.inl ⟨rfl, rfl⟩)))))
  · cases ht
    exact .inr (.inr (.inr (.inr (.inr (.inr ⟨a, v, rfl, rfl⟩)))))

/-- A step with nothing waiting. -/
theorem step_nil {s : State} (h : s.inbox = []) : step s = .next s := by
  simp [step, nextEvent, h]

end Sys2Proof.Machine
end

