-- ==== Sys2Proof/Laws/PerInstr.lean ====
section
/-! SUPPORT. Statements made per command: the encoding. -/

namespace Sys2Proof.Laws.Encoding

/-- A command is well formed, its word is a defined command word, and the decoder gives the command back
(30_encoding.md R51, R52). -/
def Statement (i : Instr) : Prop :=
  i.wf = true ∧ commandWordWf (encode i) = true ∧ decode (encode i) = .ok i

theorem init : Statement .init := by unfold Statement; decide

theorem xform : Statement .xform := by unfold Statement; decide

theorem clear : Statement .clear := by unfold Statement; decide

end Sys2Proof.Laws.Encoding
end

