-- ==== Sys2Proof/Tests/Slice0.lean ====
section
/-! SUPPORT. The model's own tests: words and values written out from the spec, and for every statement with hypotheses a
witness that meets them. -/

-- The kernel evaluates these tests one after another: elaborated ahead of it, each would hold a waiting thread.
set_option Elab.async false

namespace Sys2Proof.Tests

open Sys2Proof Sys2Proof.Machine Sys2Proof.Reference

/-! ### Decoding (30_encoding.md R52's bit patterns, R54, R56; 95_test_vectors.md V40) -/

theorem test_decode_init : decode 0b00000000000000000000000000000001 = .ok .init := by decide

theorem test_decode_xform : decode 0b00000000000000000000000000000010 = .ok .xform := by decide

theorem test_decode_clear : decode 0b00000000000000000000000000000011 = .ok .clear := by decide

/-- V40: a defined `op` under a bit of `zero`, and the words around the three. -/
theorem test_decode_illegal :
    decode 0b00000000000000000000000000000000 = .error (.illegal 0) ∧
    decode 0b00000000000000000000000000000100 = .error (.illegal 4) ∧
    decode 0b00000000000000000000000011111111 = .error (.illegal 0xFF) ∧
    decode 0b00000000000000000000000100000001 = .error (.illegal 0x101) ∧
    decode 0b10000000000000000000000000000010 = .error (.illegal 0x80000002) := by decide

theorem test_decode_table_word :
    decodeTableWord 32 1 = some .init ∧ decodeTableWord 32 2 = some .xform ∧ decodeTableWord 32 3 = some .clear ∧
    decodeTableWord 32 0 = none ∧ decodeTableWord 32 4 = none ∧ decodeTableWord 40 0x100000001 = none := by decide

/-- The packed forms V40 and R56 print. -/
theorem test_packed_forms :
    encodePacked (.write .cmd (encode .init)) = some 0x800000001 ∧
    encodePacked (.write .src 0xDEADBEEF) = some 0xDDEADBEEF ∧
    encodePacked (.write .keylen 0xFFFFFFFF) = some 0xCFFFFFFFF ∧
    encodePacked (.read .len) = some 0x700000000 ∧ encodePacked .reset = none ∧
    decodePacked 0x9FFFFFFFF = .write .status 0xFFFFFFFF ∧ decodePacked 0x300000000 = .read .keyaddr := by decide

/-! ### Well-formedness: a term that each check refuses -/

theorem test_wf_accepts :
    Instr.wf .init = true ∧ commandWordWf 1 = true ∧ commandWordWf 3 = true ∧ packedWf 0x500000000 = true ∧
    Memory.wf [(0, 1), (7, 255), (0xFFFFFFFF, 2)] = true := by decide

/-- `zero` is not 0. -/
theorem test_wf_refuses_zero_field : commandWordWf 0x00000101 = false ∧ commandWordWf 0x80000002 = false := by decide

/-- `op` is none of the three codes. -/
theorem test_wf_refuses_op_field : commandWordWf 0x00000000 = false ∧ commandWordWf 0x00000004 = false := by decide

/-- A read with a value. -/
theorem test_wf_refuses_packed_read : packedWf 0x500000001 = false := by decide

/-- Out of order, a repeated address, a cell that holds the unlisted byte, an address that does not exist. -/
theorem test_wf_refuses_memory :
    Memory.wf [(2, 1), (1, 1)] = false ∧ Memory.wf [(1, 1), (1, 2)] = false ∧ Memory.wf [(1, 0)] = false ∧
    Memory.wf [(0x100000000, 1)] = false := by decide

/-! ### Small states -/

/-- What a step answers, tested; a fault or a refusal fails the test. -/
def gives (o : Host.Outcome State Fault Refusal) (check : State → Bool) : Bool :=
  match o with
  | .next t => check t
  | .fault _ => false
  | .refused _ => false

/-- The key "SECRET" at 0x1000 and "This is a test" at 0x2000 (95_test_vectors.md V1). -/
def memory : Memory :=
  [(0x1000, 83), (0x1001, 69), (0x1002, 67), (0x1003, 82), (0x1004, 69), (0x1005, 84),
   (0x2000, 84), (0x2001, 104), (0x2002, 105), (0x2003, 115), (0x2004, 32), (0x2005, 105), (0x2006, 115)] ++
  [(0x2007, 32), (0x2008, 97), (0x2009, 32), (0x200A, 116), (0x200B, 101), (0x200C, 115), (0x200D, 116)]

/-- A reset block with operands set. -/
def unkeyed (keyAddr keyLen src dst len : Word) : State :=
  { State.resetOver memory with regs := ⟨keyAddr, keyLen, src, dst, len⟩ }

/-- A keyed block at indices `i`, `j` of the identity table (95_test_vectors.md V20), operands set. -/
def keyedAt (i j : Byte) (src dst len : Word) : State :=
  { unkeyed 0x1000 6 src dst len with cipher := ⟨identityTable, i, j⟩, keyed := true }

def keyed (src dst len : Word) : State := keyedAt 0 0 src dst len

/-- The faulted block of V42. -/
def faulted : State := { keyed 0x2000 0x2007 14 with fatal := true, err := .overlap }

/-- A state with one event waiting. -/
def waiting (e : HostEvent) (s : State) : State := { s with inbox := [e] }

/-- The operands of V1. -/
def knownAnswer : State := unkeyed 0x1000 6 0x2000 0x3000 14

/-- The state after an outcome, for a test that goes on from it. -/
def afterward (o : Host.Outcome State Fault Refusal) : State :=
  match o with
  | .next t => t
  | .fault _ => State.reset
  | .refused _ => State.reset

/-! ### The commands -/

/-- INIT then XFORM on V1: 8 entries of the table V1a, the 14 output bytes, `i`, `j`, STATUS. -/
theorem test_init_xform_known_answer :
    gives (exec .init knownAnswer) (fun s =>
      (List.range 8).map (fun n => (s.cipher.table.entry (BitVec.ofNat 8 n)).toNat) ==
        [83, 153, 223, 108, 1, 19, 163, 122] &&
      readRegister .status s == 1 &&
      gives (exec .xform s) (fun t =>
        (List.range 14).map (fun n => (t.mem.byteAt (0x3000 + n)).toNat) ==
          [200, 6, 5, 12, 47, 73, 80, 232, 131, 70, 200, 214, 18, 118] &&
        t.mem.wf && t.cipher.i == 14 && t.cipher.j == 228 && readRegister .status t == 1)) = true := by
  decide +kernel

/-- V18, last lines of S1: a key of 257 bytes. -/
theorem test_init_keysize :
    gives (exec .init (unkeyed 0x1000 257 0 0 0)) (fun t =>
      t.err == .keysize && t.errInfo == 0x101 && readRegister .status t == 0x10 && t.cipher.table.entry 7 == 0) = true := by
  decide +kernel

/-- V20, first row: the keystream byte 2 on the source byte 0x41 gives 0x43. -/
theorem test_xform_one_byte :
    gives (exec .xform { keyed 0x2000 0x3000 1 with mem := [(0x2000, 0x41)] }) (fun t =>
      t.mem == [(0x2000, 0x41), (0x3000, 0x43)] && t.cipher.i == 1 && t.cipher.j == 1) = true := by decide +kernel

/-- V30: one shared byte, 0x200D. -/
theorem test_xform_overlap :
    gives (exec .xform (keyed 0x2000 0x200D 14)) (fun t =>
      readRegister .status t == 0x23 && t.errInfo == 0 && t.cipher.table.entry 7 == 7 && t.cipher.i == 0 &&
        t.mem.byteAt 0x200D == 116) = true := by
  decide +kernel

/-- V41: the operand registers are kept. -/
theorem test_clear :
    gives (exec .clear (keyed 0x2000 0x3000 14)) (fun t =>
      t.cipher.table.entry 7 == 0 && t.cipher.table.entry 255 == 0 && readRegister .status t == 0 && t.regs == ⟨0x1000, 6, 0x2000, 0x3000, 14⟩) = true := by
  decide +kernel

/-- V41, last line: ignored by a faulted block. -/
theorem test_clear_faulted :
    gives (step (waiting (.transaction (.write .cmd 3)) faulted)) (fun t =>
      readRegister .status t == 0x23 && t.cipher.table.entry 255 == 255) = true := by decide +kernel

/-- V20, all four rows: `K`, `i`, `j` and the two entries written. -/
theorem test_prga_step :
    let row (i j : Byte) (a b : Byte) : List Nat :=
      let r := prgaStep ⟨identityTable, i, j⟩
      [r.2.toNat, r.1.i.toNat, r.1.j.toNat, (r.1.table.entry a).toNat, (r.1.table.entry b).toNat]
    row 0 0 1 2 = [2, 1, 1, 1, 2] ∧ row 255 250 0 250 = [0, 0, 250, 250, 0] ∧
    row 199 100 200 44 = [244, 200, 44, 44, 200] ∧ row 0 255 1 0 = [0, 1, 0, 0, 1] := by decide +kernel

/-- V2, round 3 of "SECRET" on its operands: 222 + 3 + 82 wraps to 51, and entries 3 and 51 are exchanged. -/
theorem test_ksa_round :
    (match ksaRound 6 0x1000 3 ⟨identityTable, 222, ⟨memory, []⟩⟩ with
      | .ok y => y.acc == 51 && y.table.entry 3 == 51 && y.table.entry 51 == 3 && y.port.trace == [.read 0x1003]
      | .error _ => false) = true := by decide +kernel

/-! ### Host access, reset, memory -/

/-- V40: `WR SRC`, and STATUS of a faulted block (60_exceptions.md R119). -/
theorem test_host_access :
    gives (step (waiting (.transaction (.write .src 0xDEADBEEF)) State.reset)) (fun t => t.regs.src == 0xDEADBEEF) = true ∧
    gives (step (waiting (.transaction (.read .status)) faulted)) (fun t => t.replies == [0x23]) = true := by
  decide +kernel

/-- V42: a faulted block is reset. -/
theorem test_reset :
    gives (step (waiting (.transaction .reset) faulted)) (fun t =>
      readRegister .status t == 0 && t.cipher.table.entry 255 == 0 && t.regs == ⟨0, 0, 0, 0, 0⟩ &&
        t.mem.byteAt 0x1000 == 83) = true := by decide +kernel

/-- `withFetchWord` puts the command in front, and the next step runs it: INIT finds `KEYLEN` = 0. -/
theorem test_with_fetch_word :
    gives (step (State.reset.withFetchWord 32 1)) (fun t => t.err == .keysize && t.inbox == []) = true := by decide

/-- A write of the unlisted byte removes the cell; the top address is ordinary. -/
theorem test_set_byte :
    Memory.setByte [(1, 5), (3, 6)] 3 0 = [(1, 5)] ∧ Memory.setByte [(1, 5), (3, 6)] 2 9 = [(1, 5), (2, 9), (3, 6)] ∧
    Memory.byteAt (Memory.setByte [] 0xFFFFFFFF 7) 0xFFFFFFFF = 7 := by decide

/-! ### Witnesses: states and operands that meet the hypotheses of each statement, and the bounds of each clause -/

/-- A faulted keyed block meets the invariant: the hypotheses of EveryStepKeepsInvariant, StatusFields, FaultedBlockIgnoresWrites. -/
theorem test_witness_Inv_faulted : faulted.Inv where
  keyed_bijection _ := Table.Bijection.identity
  unkeyed_zero h := by cases h
  fatal_overlap_keyed _ := ⟨rfl, rfl⟩
  overlap_fatal _ := rfl
  errInfo_legal := rfl
  mem_canonical := by decide

theorem test_witness_EveryStepKeepsInvariant :
    (waiting (.transaction (.write .cmd 2)) (keyed 0x2000 0x200D 14)).Inv ∧
    gives (step (waiting (.transaction (.write .cmd 2)) (keyed 0x2000 0x200D 14))) (fun t => t.fatal) = true :=
  ⟨⟨fun _ => Table.Bijection.identity, fun h => Bool.noConfusion h, fun h => Bool.noConfusion h, fun h => (nomatch h), rfl,
    by decide⟩, by decide +kernel⟩

/-- Words at the edges of the legal range (IllegalWordRefused, AdmissionOrder, CmdWriteDispatch, ErrorValueRecorded). -/
theorem test_witness_IllegalWordRefused :
    [(0x00000000 : Word), 0x00000004, 0x00000101, 0x80000002].all (fun w =>
      gives (step (waiting (.transaction (.write .cmd w)) knownAnswer)) (fun t =>
        t.err == .illegal && t.errInfo == w && !t.fatal)) = true := by decide +kernel

theorem test_witness_StepRunsDecodedCommand :
    decode 3 = .ok .clear ∧ (waiting (.transaction (.write .cmd 3)) knownAnswer).fatal = false ∧
    gives (step (waiting (.transaction (.write .cmd 3)) knownAnswer)) (fun t => t.err == .ok) = true ∧
    gives (step (State.reset.withFetchWord 32 (encode .xform).toNat)) (fun t => t.err == .notkeyed) = true := by
  decide +kernel

/-- A completing command, a refused one and the fatal fault (CmdWriteDispatch, FatalFlagSetAndCleared). -/
theorem test_witness_CmdWriteDispatch :
    gives (step (waiting (.transaction (.write .cmd 2)) (keyed 0x2000 0x2000 2))) (fun t => t.err == .ok) = true ∧
    gives (step (waiting (.transaction (.write .cmd 2)) knownAnswer)) (fun t => t.err == .notkeyed) = true ∧
    gives (step (waiting (.transaction (.write .cmd 2)) (keyed 0x2000 0x2001 2))) (fun t => t.fatal) = true := by
  decide +kernel

theorem test_witness_IdleBlockWaits : (keyed 0 0 0).inbox = [] := rfl

/-- A write, a read and a reset of a faulted block (FaultedBlockIgnoresWrites, OutcomeKeptByOtherEvents, ResetTransaction). -/
theorem test_witness_FaultedBlockIgnoresWrites :
    faulted.fatal = true ∧
    gives (step (waiting (.transaction (.write .len 1)) faulted)) (fun t => t.regs.len == 14 && t.fatal) = true ∧
    gives (step (waiting (.transaction (.read .dst)) faulted)) (fun t => t.replies == [0x2007] && t.fatal) = true ∧
    gives (step (waiting (.transaction .reset) faulted)) (fun t => !t.fatal) = true := by decide +kernel

theorem test_witness_FatalFlagSetAndCleared :
    (keyed 0xFFFFFFF0 0xFFFFFFF7 8).fatal = false ∧ (keyed 0xFFFFFFF0 0xFFFFFFF7 8).keyed = true ∧
    srcOf (keyed 0xFFFFFFF0 0xFFFFFFF7 8) + lenOf (keyed 0xFFFFFFF0 0xFFFFFFF7 8) ≤ 2 ^ 32 ∧
    dstOf (keyed 0xFFFFFFF0 0xFFFFFFF7 8) + lenOf (keyed 0xFFFFFFF0 0xFFFFFFF7 8) ≤ 2 ^ 32 ∧
    partialOverlap (srcOf (keyed 0xFFFFFFF0 0xFFFFFFF7 8)) (dstOf (keyed 0xFFFFFFF0 0xFFFFFFF7 8)) 8 = true := by
  decide +kernel

/-- KeyedFlagRisesAndFalls: its clauses, and a refused INIT that leaves the flag. -/
theorem test_witness_KeyedFlagRisesAndFalls :
    InitRuns knownAnswer ∧ ¬ InitRuns (unkeyed 0xFFFFFFFF 2 0 0 0) ∧
    gives (step (waiting (.transaction (.write .cmd 3)) (keyed 0 0 0))) (fun t => !t.keyed) = true ∧
    gives (step (waiting (.transaction (.write .cmd 2)) (keyed 0 0 0))) (fun t => t.keyed) = true :=
  ⟨⟨rfl, by decide, by decide⟩, fun h => absurd h.keyInRange (by decide), by decide +kernel, by decide +kernel⟩

/-- ErrorValueRecorded: each clause, at the bounds of the refused key lengths. -/
theorem test_witness_ErrorValueRecorded :
    [(0 : Word), 257, 0xFFFFFFFF].all (fun k =>
      gives (step (waiting (.transaction (.write .cmd 1)) (unkeyed 0 k 0 0 0))) (fun t =>
        t.err == .keysize && t.errInfo == k)) = true ∧
    gives (step (waiting (.transaction (.write .cmd 1)) (unkeyed 0xFFFFFF01 256 0 0 0))) (fun t =>
      t.err == .range && t.errInfo == 0) = true ∧
    gives (step (waiting (.transaction (.write .cmd 0xFFFFFFFF)) knownAnswer)) (fun t =>
      t.err == .illegal && t.errInfo == 0xFFFFFFFF) = true := by decide +kernel

theorem test_witness_OutcomeKeptByOtherEvents :
    gives (step (waiting (.transaction (.write .src 5)) (keyed 0 0 0))) (fun t => t.err == .ok) = true ∧
    gives (step (waiting (.transaction (.write .cmd 4)) faulted)) (fun t => t.err == .overlap) = true ∧
    gives (step (waiting (.memoryWrite 5 6) faulted)) (fun t => t.err == .overlap) = true := by decide +kernel

theorem test_witness_HostReadReturnsRegister :
    [Reg.cmd, .status, .errinfo, .keyaddr, .keylen, .src, .dst, .len].map (fun r =>
      (afterward (step (waiting (.transaction (.read r)) faulted))).replies) =
    [[0], [0x23], [0], [0x1000], [6], [0x2000], [0x2007], [14]] := by decide +kernel

theorem test_witness_OperandWriteStores :
    gives (step (waiting (.transaction (.write .keyaddr 0xFFFFFFFF)) knownAnswer)) (fun t =>
      t.regs == ⟨0xFFFFFFFF, 6, 0x2000, 0x3000, 14⟩) = true ∧
    gives (step (waiting (.transaction (.write .keyaddr 0xFFFFFFFF)) faulted)) (fun t => t.regs == faulted.regs) = true := by
  decide +kernel

theorem test_witness_ReadOnlyWritesIgnored :
    gives (step (waiting (.transaction (.write .status 0xFFFFFFFF)) knownAnswer)) (fun t =>
      readRegister .status t == 0 && t.regs == knownAnswer.regs) = true ∧
    gives (step (waiting (.transaction (.write .errinfo 1)) faulted)) (fun t => t.errInfo == 0 && t.fatal) = true := by decide +kernel

theorem test_witness_ResetTransaction :
    (waiting (.transaction .reset) (keyed 0x2000 0x3000 14)).inbox = [.transaction .reset] ∧
    (waiting (.transaction (.write .cmd 3)) faulted).fatal = true := by decide +kernel

theorem test_witness_ResetAndClearCompared : (keyed 0 0 0).fatal = false ∧ faulted.fatal = true := by decide +kernel

/-- The lowest and the highest address (HostMemoryWriteLands, MemoryPortPrimitives). -/
theorem test_witness_HostMemoryWriteLands :
    memory.wf = true ∧
    gives (step (waiting (.memoryWrite 0 6) knownAnswer)) (fun t => t.mem.byteAt 0 == 6 && t.mem.byteAt 1 == 0) = true ∧
    gives (step (waiting (.memoryWrite 0xFFFFFFFF 6) knownAnswer)) (fun t => t.mem.byteAt 0xFFFFFFFF == 6) = true := by
  decide +kernel

theorem test_witness_MemoryPortPrimitives :
    memRead 0xFFFFFFFF ⟨memory, []⟩ = .ok (0, ⟨memory, [.read 0xFFFFFFFF]⟩) ∧
    memRead 0x100000000 ⟨memory, []⟩ = .error (.noSuchAddress 0x100000000) ∧
    memWrite 0x100000000 1 ⟨memory, []⟩ = .error (.noSuchAddress 0x100000000) := ⟨rfl, rfl, rfl⟩

/-- The first and the last round, the shortest key and a key that ends at the top. -/
theorem test_witness_KsaRoundRule :
    [((1, 0xFFFFFFFF, 0) : Nat × Nat × Nat), (256, 0xFFFFFF00, 255)].all (fun v =>
      decide (1 ≤ v.1) && decide (v.1 ≤ 256) && decide (v.2.1 + v.1 ≤ 2 ^ 32) && decide (v.2.2 < 256) &&
      (match ksaRound v.1 v.2.1 v.2.2 ⟨identityTable, 0, ⟨memory, []⟩⟩ with
        | .ok y => y.acc == BitVec.ofNat 8 v.2.2
        | .error _ => false)) = true := by decide +kernel

/-- The bounds of V18: keys of 1 and 256 bytes that end at the top of the address space. -/
theorem test_witness_InitRuns_bounds :
    InitRuns (unkeyed 0xFFFFFFFF 1 0 0 0) ∧ InitRuns (unkeyed 0xFFFFFF00 256 0 0 0) ∧
    ¬ InitRuns (unkeyed 0 0 0 0 0) ∧ ¬ InitRuns (unkeyed 0 257 0 0 0) ∧ ¬ InitRuns (unkeyed 0xFFFFFF01 256 0 0 0) ∧
    ¬ InitRuns faulted :=
  ⟨⟨rfl, by decide, by decide⟩, ⟨rfl, by decide, by decide⟩, fun h => absurd h.keyLegal (by decide),
    fun h => absurd h.keyLegal (by decide), fun h => absurd h.keyInRange (by decide), fun h => by cases h.notFaulted⟩

theorem test_witness_InitSchedulesKey : InitRuns knownAnswer := ⟨rfl, by decide, by decide⟩

/-- One key byte, at two places, on an unkeyed and on a keyed block. -/
theorem test_witness_InitDependsOnKeyOnly :
    InitRuns (unkeyed 0x1000 1 0 0 0) ∧ InitRuns { keyed 0 0 0 with regs := ⟨0x500, 1, 0, 0, 0⟩, mem := [(0x500, 83)] } ∧
    memory.byteAt 0x1000 = Memory.byteAt [(0x500, 83)] 0x500 :=
  ⟨⟨rfl, by decide, by decide⟩, ⟨rfl, by decide, by decide⟩, by decide⟩

/-- One zero byte, and 256 of them (95_test_vectors.md V11, V13). -/
theorem test_witness_RepeatedKeySchedulesAlike :
    InitRuns (unkeyed 0x8000 1 0 0 0) ∧ InitRuns (unkeyed 0x8000 256 0 0 0) ∧
    keylenOf (unkeyed 0x8000 256 0 0 0) = 256 * keylenOf (unkeyed 0x8000 1 0 0 0) ∧
    ∀ m, m < 256 → memory.byteAt (0x8000 + m) = memory.byteAt (0x8000 + m % 1) :=
  ⟨⟨rfl, by decide, by decide⟩, ⟨rfl, by decide, by decide⟩, by decide, by decide +kernel⟩

theorem test_witness_XorByteRule :
    (0xFFFFFFFF : Nat) < 2 ^ 32 ∧ memory.wf = true ∧ memory.byteAt 0xFFFFFFFF = 0 ∧ memory.byteAt 0x2000 = 84 := by decide

/-- V30: adjacent, one shared byte, one byte, none. -/
theorem test_witness_OverlapGuard :
    [partialOverlap 0x2000 0x200E 14, partialOverlap 0x2000 0x200D 14, partialOverlap 0x2001 0x2000 14,
      partialOverlap 0x2000 0x2000 14, partialOverlap 0x2000 0x2001 1, partialOverlap 0x2000 0x2001 0] =
    [false, true, true, false, false, false] := by decide

/-- The operands of V1, in place, adjacent buffers that end at the top, an empty transform, and one that overlaps. -/
theorem test_witness_XformRuns_bounds :
    XformRuns (keyed 0x2000 0x3000 14) ∧ XformRuns (keyed 0x2000 0x2000 14) ∧ XformRuns (keyed 0xFFFFFFF0 0xFFFFFFF8 8) ∧
    XformRuns (keyed 0x2000 0x2001 0) ∧ ¬ XformRuns (keyed 0x2000 0x200D 14) ∧ ¬ XformRuns knownAnswer ∧
    (keyed 0x2000 0x3000 14).mem.wf = true := by
  refine ⟨⟨rfl, rfl, by decide, by decide, .inr (.inr (.inl (by decide)))⟩, ⟨rfl, rfl, by decide, by decide, .inr (.inl rfl)⟩,
    ⟨rfl, rfl, by decide, by decide, .inr (.inr (.inl (by decide)))⟩, ⟨rfl, rfl, by decide, by decide, .inl rfl⟩,
    fun h => ?_, fun h => (by cases h.isKeyed), by decide⟩
  rcases h.admitted with h | h | h | h <;> revert h <;> decide

theorem test_witness_XformTransformsBuffer : XformRuns (keyed 0x2000 0x3000 14) ∧ (keyed 0x2000 0x3000 14).mem.wf = true :=
  ⟨test_witness_XformRuns_bounds.1, by decide⟩

/-- Every line of the order of tests, at its bounds (V18, V30, V31). -/
theorem test_witness_AdmissionOrder :
    [(unkeyed 0xFFFFFFFF 0xFFFFFFFF 0 0 0, (1 : Word)), (unkeyed 0xFFFFFFFB 6 0 0 0, 1),
      (unkeyed 0 0 0x2000 0x2001 14, 2), (keyed 0xFFFFFFF3 0xFFFFFFF4 14, 2), (keyed 0x2000 0xFFFFFFF3 14, 2),
      (keyed 0 1 0xFFFFFFFF, 2), (keyed 0xFFFFFFFF 0xFFFFFFFF 1, 2), (keyed 0 0 0, 3), (faulted, 1)].map (fun v =>
      (readRegister .status (afterward (step (waiting (.transaction (.write .cmd v.2)) v.1)))).toNat) =
    [0x10, 0x50, 0x30, 0x51, 0x51, 0x23, 0x01, 0x00, 0x23] := by decide +kernel

/-- RangeRule: each refused form one byte beyond the top, and each form that ends at it. -/
theorem test_witness_RangeRule :
    gives (exec .init (unkeyed 0xFFFFFFFB 6 0 0 0)) (fun t => readRegister .status t == 0x50) = true ∧
    gives (exec .xform (keyed 0xFFFFFFF3 0x2000 14)) (fun t => readRegister .status t == 0x51) = true ∧
    gives (exec .xform (keyed 0x2000 0xFFFFFFF3 14)) (fun t => readRegister .status t == 0x51) = true ∧
    gives (exec .xform (keyed 0xFFFFFFFF 0xFFFFFFFF 1)) (fun t => readRegister .status t == 1) = true ∧
    inRange 0xFFFFFFFA 6 = true ∧ inRange 0xFFFFFFFB 6 = false ∧ inRange 0xFFFFFFFF 0 = true := by decide +kernel

theorem test_witness_EmptyTransformIsNoOp :
    (keyed 0x2000 0x2001 0).fatal = false ∧ (keyed 0x2000 0x2001 0).keyed = true ∧ lenOf (keyed 0x2000 0x2001 0) = 0 := by
  decide +kernel

theorem test_witness_XformTouchesItsBuffersOnly :
    XformRuns (keyed 0xFFFFFFF0 0xFFFFFFF8 8) ∧ (keyed 0xFFFFFFF0 0xFFFFFFF8 8).mem.wf = true :=
  ⟨test_witness_XformRuns_bounds.2.2.1, by decide⟩

theorem test_witness_CommandTraffic :
    traffic .xform (keyed 0x2000 0x3000 1) = .ok [.read 0x2000, .write 0x3000 86] ∧
    traffic .xform (keyed 0x2000 0x200D 14) = .ok [] ∧ traffic .init (unkeyed 0 257 0 0 0) = .ok [] := by decide +kernel

/-- The source's own split, with an empty chunk (S4, S5). -/
theorem test_witness_StreamingEquivalence :
    XformRuns (keyed 0x2000 0x3000 14) ∧ [5, 0, 5, 4].sum = lenOf (keyed 0x2000 0x3000 14) ∧
    gives (inChunks [5, 0, 5, 4] 0x2000 0x3000 (keyed 0x2000 0x3000 14)) (fun t => t.cipher.i == 14) = true :=
  ⟨test_witness_XformRuns_bounds.1, by decide, by decide +kernel⟩

/-- S3: the second transform goes to 0x4000. -/
theorem test_witness_TransformIsItsOwnInverse :
    let s := knownAnswer
    s.mem.wf = true ∧ InitRuns s ∧ XformRuns { s with keyed := true } ∧
    XformRuns { s with keyed := true, regs := { s.regs with src := s.regs.dst, dst := 0x4000 } } ∧
    keyaddrOf s + keylenOf s ≤ dstOf s :=
  ⟨by decide, ⟨rfl, by decide, by decide⟩, ⟨rfl, rfl, by decide, by decide, .inr (.inr (.inl (by decide)))⟩,
    ⟨rfl, rfl, by decide, by decide, .inr (.inr (.inl (by decide)))⟩, by decide⟩

/-- V21 and V22: other data, other addresses. -/
theorem test_witness_KeystreamDataIndependent :
    XformRuns (keyed 0x2000 0x3000 14) ∧ XformRuns (keyed 0x5000 0x4000 14) ∧
    (keyed 0x2000 0x3000 14).cipher = (keyed 0x5000 0x4000 14).cipher ∧
    lenOf (keyed 0x2000 0x3000 14) = lenOf (keyed 0x5000 0x4000 14) :=
  ⟨test_witness_XformRuns_bounds.1, ⟨rfl, rfl, by decide, by decide, .inr (.inr (.inr (by decide)))⟩, rfl, rfl⟩

/-- S6: in place, and to a buffer that touches the source. -/
theorem test_witness_InPlaceEqualsDisjoint :
    XformRuns (keyed 0x2000 0x2000 14) ∧ XformRuns (keyed 0x2000 0x200E 14) ∧
    srcOf (keyed 0x2000 0x2000 14) = dstOf (keyed 0x2000 0x2000 14) ∧
    srcOf (keyed 0x2000 0x200E 14) + lenOf (keyed 0x2000 0x200E 14) ≤ dstOf (keyed 0x2000 0x200E 14) ∧
    (keyed 0x2000 0x2000 14).mem = (keyed 0x2000 0x200E 14).mem :=
  ⟨test_witness_XformRuns_bounds.2.1, ⟨rfl, rfl, by decide, by decide, .inr (.inr (.inl (by decide)))⟩, rfl, by decide, rfl⟩

theorem test_witness_SecondTransformContinuesKeystream :
    XformRuns (keyed 0x2000 0x3000 14) ∧ srcOf (keyed 0x2000 0x3000 14) + 2 * lenOf (keyed 0x2000 0x3000 14) ≤ 2 ^ 32 ∧
    dstOf (keyed 0x2000 0x3000 14) + 2 * lenOf (keyed 0x2000 0x3000 14) ≤ 2 ^ 32 :=
  ⟨test_witness_XformRuns_bounds.1, by decide, by decide⟩

theorem test_witness_XformKeepsBijection :
    (keyed 0x2000 0x3000 2).cipher.table.Bijection ∧
    gives (exec .xform (keyed 0x2000 0x3000 2)) (fun t => t.err == .ok) = true :=
  ⟨Table.Bijection.identity, by decide +kernel⟩

theorem test_witness_ClearZeroesCipherState :
    (keyed 0 0 0).fatal = false ∧ faulted.fatal = true ∧
    gives (exec .clear (keyed 0 0 0)) (fun t => gives (exec .xform t) (fun u => readRegister .status u == 0x30)) = true := by
  decide +kernel

theorem test_witness_CommandFrame :
    [Instr.init, .xform, .clear].all (fun i =>
      gives (exec i (unkeyed 1 0 2 3 4)) (fun t => t.regs == ⟨1, 0, 2, 3, 4⟩) && gives (exec i faulted) (fun t =>
        readRegister .status t == 0x23 && t.cipher.table.entry 255 == 255)) = true := by
  decide +kernel

theorem test_witness_XformFrame :
    ¬ XformRuns knownAnswer ∧ knownAnswer.mem.wf = true ∧ gives (exec .xform knownAnswer) (fun t => t.mem.byteAt 0x3000 == 0) = true :=
  ⟨fun h => (by cases h.isKeyed), by decide, by decide +kernel⟩

theorem test_witness_ErrorChangesNothingElse :
    (keyed 0x2000 0x2001 2).fatal = false ∧
    gives (exec .xform (keyed 0x2000 0x2001 2)) (fun t => t.err != .ok && t.fatal) = true ∧
    gives (exec .init (unkeyed 0 0 0 0 0)) (fun t => t.err != .ok && !t.fatal) = true := by decide +kernel

theorem test_witness_ResetMeetsInvariant : Memory.wf memory = true := by decide

/-- Two cipher states, one of them no permutation; both transform. -/
theorem test_witness_CipherStateInvisible :
    gives (step (waiting (.transaction (.write .cmd 2)) (keyed 0x2000 0x3000 1))) (fun t => t.err == .ok) = true ∧
    gives (step (waiting (.transaction (.write .cmd 2))
      { keyed 0x2000 0x3000 1 with cipher := Cipher.zero })) (fun t => t.err == .ok) = true := by decide +kernel

theorem test_witness_PackedFormRoundTrip :
    encodePacked (.read .len) = some 0x700000000 ∧ packedWf 0x700000000 = true ∧
    encodePacked (.write .cmd 0) = some 0x800000000 ∧ packedWf 0x800000000 = true := by decide

theorem test_witness_PseudoInstructionsExpand :
    knownAnswer.fatal = false ∧ faulted.fatal = true ∧
    expandLine (.init 0x100 5) = [.write .keyaddr 0x100, .write .keylen 5, .write .cmd 1] := by decide +kernel

end Sys2Proof.Tests
end

-- Proofs of the statements about the block's state (10_state.md): the FATAL flag and the reset values.
section
namespace Sys2Proof.Machine

/-! ### The FATAL flag (10_state.md R13) -/

/-- Only one of the three command words selects XFORM (30_encoding.md R52). -/
theorem decode_eq_xform_iff {w : Word} : decode w = .ok .xform ↔ w = 2 := by
  rw [decode_eq]
  constructor
  · intro h
    split_ifs at h with h1 h2 <;> cases h
    exact h2
  · rintro rfl
    rfl

/-- What a command does to `FATAL`: it stays, or an XFORM has found a partial overlap and sets it (60_exceptions.md R114). -/
theorem exec_fatal {i : Instr} {s t : State} (h : exec i s = .next t) :
    t.fatal = s.fatal ∨
    (i = .xform ∧ s.keyed = true ∧ partialOverlap (srcOf s) (dstOf s) (lenOf s) = true ∧ t.fatal = true) := by
  cases i with
  | init =>
    rcases execInit_next h with ⟨-, rfl⟩ | ⟨-, -, rfl⟩ | ⟨-, -, -, rfl⟩ | ⟨-, rfl⟩ <;> exact .inl rfl
  | xform =>
    rcases execXform_next h with ⟨-, rfl⟩ | ⟨-, -, rfl⟩ | ⟨-, -, -, rfl⟩ | ⟨-, hk, -, ho, rfl⟩ | ⟨-, x, -, rfl⟩
    case inr.inr.inr.inl => exact .inr ⟨rfl, hk, ho, rfl⟩
    all_goals exact .inl rfl
  | clear =>
    rcases execClear_next h with ⟨-, rfl⟩ | ⟨-, rfl⟩ <;> exact .inl rfl

/-- What a step does to `FATAL`: it stays, a Reset clears it, or an XFORM that finds a partial overlap sets it. -/
theorem step_fatal {s t : State} {e : HostEvent} {rest : List HostEvent} (h : s.inbox = e :: rest)
    (ht : step s = .next t) :
    t.fatal = s.fatal ∨
    (e = .transaction .reset ∧ t.fatal = false) ∨
    (e = .transaction (.write .cmd 2) ∧ s.keyed = true ∧
      partialOverlap (srcOf s) (dstOf s) (lenOf s) = true ∧ t.fatal = true) := by
  obtain ⟨u, rfl, ⟨r, v, -, -, rfl⟩ | ⟨w, i, rfl, -, hd, hx⟩ | ⟨w, v, -, -, -, rfl⟩ | ⟨r, v, -, -, -, rfl⟩ |
    ⟨r, -, rfl⟩ | ⟨rfl, rfl⟩ | ⟨a, v, -, rfl⟩⟩ := step_next h ht
  · exact .inl rfl
  · obtain hsame | ⟨rfl, hk, ho, hset⟩ := exec_fatal hx
    · exact .inl hsame
    · obtain rfl := decode_eq_xform_iff.mp hd
      exact .inr (.inr ⟨rfl, hk, ho, hset⟩)
  · exact .inl rfl
  · exact .inl (writeRegister_fatal ..)
  · exact .inl rfl
  · exact .inr (.inl ⟨rfl, rfl⟩)
  · exact .inl rfl

/-- A Reset acts in every state, a faulted one too (70_reset_and_hazards.md R130). -/
theorem step_reset {s : State} {rest : List HostEvent} (h : s.inbox = .transaction .reset :: rest) :
    step s = .next (hostReset { s with inbox := rest }) :=
  step_cons h

/-- A faulted block ignores a host write (60_exceptions.md R119). -/
theorem step_write_faulted {s : State} {r : Reg} {v : Word} {rest : List HostEvent}
    (h : s.inbox = .transaction (.write r v) :: rest) (hf : s.fatal = true) :
    step s = .next { s with inbox := rest } :=
  (step_cons h).trans (hostWrite_faulted v hf)

/-- An XFORM whose tests pass up to the overlap test, and that fails it (41_keystream.md R83, 60_exceptions.md R114). -/
theorem runXform_overlap {s : State} (hk : s.keyed = true) (hf : s.fatal = false)
    (hs : srcOf s + lenOf s ≤ 2 ^ 32) (hd : dstOf s + lenOf s ≤ 2 ^ 32)
    (ho : partialOverlap (srcOf s) (dstOf s) (lenOf s) = true) :
    runXform s = .ok (fatalFault .overlap 0 s, []) := by
  simp [runXform, hf, hk, inRange_eq_true.mpr hs, inRange_eq_true.mpr hd, ho]

theorem execXform_overlap {s : State} (hk : s.keyed = true) (hf : s.fatal = false)
    (hs : srcOf s + lenOf s ≤ 2 ^ 32) (hd : dstOf s + lenOf s ≤ 2 ^ 32)
    (ho : partialOverlap (srcOf s) (dstOf s) (lenOf s) = true) :
    exec .xform s = .next (fatalFault .overlap 0 s) := by
  change outcomeOf (runXform s) = _
  rw [runXform_overlap hk hf hs hd ho]
  rfl

/-- `FATAL` is bit 1 of STATUS (10_state.md R23). -/
theorem statusWord_getLsbD_one (s : State) : (statusWord s).getLsbD 1 = s.fatal := by
  simp only [statusWord, BitVec.getLsbD_append]
  simp

/-- Settles O9: `step_fatal` says everything a step does to `FATAL`; the set clause is `execXform_overlap`. -/
theorem fatalFlagSetAndCleared : Obligations.FatalFlagSetAndCleared := by
  refine ⟨fun s t e rest hin ht => ⟨?rises, ?falls, ?reset, ?ignored⟩, ?set, statusWord_getLsbD_one⟩
  case rises =>
    intro hf hset
    obtain hsame | ⟨-, hclear⟩ | ⟨he, hk, ho, -⟩ := step_fatal hin ht
    · simp [hsame, hf] at hset
    · simp [hclear] at hset
    · exact ⟨he, hk, ho⟩
  case falls =>
    intro hf hclear
    obtain hsame | ⟨he, -⟩ | ⟨-, -, -, hset⟩ := step_fatal hin ht
    · simp [hsame, hf] at hclear
    · exact he
    · simp [hset] at hclear
  case reset =>
    rintro rfl
    cases (step_reset hin).symm.trans ht
    rfl
  case ignored =>
    rintro hf r v rfl
    cases (step_write_faulted hin hf).symm.trans ht
    rfl
  case set =>
    intro s hk hf hs hd ho
    exact ⟨_, execXform_overlap hk hf hs hd ho, rfl⟩

/-! ### The reset values (10_state.md R24) -/

/-- Settles O18: the fields are those of `State.resetOver`, the table's entries are `Table.entry_zero`. -/
theorem resetStateValues : Obligations.ResetStateValues :=
  ⟨Table.entry_zero, rfl, rfl, rfl, rfl, rfl, rfl, rfl, rfl, rfl, rfl, rfl, fun _ => ⟨rfl, rfl⟩⟩

end Sys2Proof.Machine
end

-- Proof of the statement about the address range (20_memory.md R37): what a command that fails the range test does, and
-- where the accesses of one that passes it lie.
section
namespace Sys2Proof.Machine

open Sys2Proof.Reference

/-! ### A command's run, read as its next state and its accesses -/

/-- A command's meaning is the outcome of its run. -/
theorem exec_eq_outcomeOf (i : Instr) (s : State) : exec i s = outcomeOf (runCommand i s) := by
  cases i <;> rfl

/-- A run that ends gives the next state and the accesses together (20_memory.md R39). -/
theorem exec_traffic_of_run {i : Instr} {s t : State} {l : List Access} (h : runCommand i s = .ok (t, l)) :
    exec i s = .next t ∧ traffic i s = .ok l := by
  simp only [exec_eq_outcomeOf, traffic, h, outcomeOf, and_self]

/-! ### The refusal with RANGE (60_exceptions.md R116) -/

/-- An INIT with a legal key length whose key passes the top of the address space. -/
theorem runInit_range {s : State} (hf : s.fatal = false) (hk : 1 ≤ keylenOf s ∧ keylenOf s ≤ 256)
    (hr : 2 ^ 32 < keyaddrOf s + keylenOf s) : runInit s = .ok (refuse .range 0 s, []) := by
  rcases runInit_cases s with ⟨hf', -⟩ | ⟨-, hk', -⟩ | ⟨-, -, -, hrun⟩ | ⟨hruns, -⟩
  · simp [hf] at hf'
  · exact absurd hk hk'
  · exact hrun
  · exact absurd hruns.keyInRange (Nat.not_le.mpr hr)

/-- An XFORM on a keyed block whose source or destination passes the top of the address space; the test stands before
the Overlap Guard. -/
theorem runXform_range {s : State} (hf : s.fatal = false) (hk : s.keyed = true)
    (hr : 2 ^ 32 < srcOf s + lenOf s ∨ 2 ^ 32 < dstOf s + lenOf s) : runXform s = .ok (refuse .range 0 s, []) := by
  have hout : ¬ (srcOf s + lenOf s ≤ 2 ^ 32 ∧ dstOf s + lenOf s ≤ 2 ^ 32) := by omega
  rcases runXform_cases s with ⟨hf', -⟩ | ⟨-, hk', -⟩ | ⟨-, -, -, hrun⟩ | ⟨-, -, hin, -⟩ | ⟨hruns, -⟩
  · simp [hf] at hf'
  · simp [hk] at hk'
  · exact hrun
  · exact absurd hin hout
  · exact absurd ⟨hruns.srcInRange, hruns.dstInRange⟩ hout

/-! ### The accesses of a command that runs (20_memory.md R39) -/

/-- Each read of INIT is at a byte of the key (40_key_schedule.md R72). -/
theorem mem_initTraffic {s : State} (hk : 1 ≤ keylenOf s) {x : Access} (hx : x ∈ initTraffic s) :
    ∃ m, m < keylenOf s ∧ x = .read (keyaddrOf s + m) := by
  obtain ⟨r, -, rfl⟩ := List.mem_map.mp hx
  exact ⟨r % keylenOf s, Nat.mod_lt r hk, rfl⟩

/-- A read that succeeds leaves the memory and appends itself to the accesses. -/
theorem memRead_port {a : Nat} {p q : Port} {b : Byte} (h : memRead a p = .ok (b, q)) :
    q = ⟨p.mem, p.trace ++ [.read a]⟩ := by
  unfold memRead at h
  split at h <;> cases h
  rfl

/-- A write that succeeds appends itself to the accesses. -/
theorem memWrite_trace {a : Nat} {v : Byte} {p q : Port} (h : memWrite a v p = .ok q) :
    q.trace = p.trace ++ [.write a v] := by
  unfold memWrite at h
  split at h <;> cases h
  rfl

/-- One byte of XFORM appends a read and a write, whatever the memory's form (41_keystream.md R82). -/
theorem xformByte_trace {src dst n : Nat} {x y : Transform} (h : xformByte src dst n x = .ok y) :
    ∃ v, y.port.trace = x.port.trace ++ [.read (src + n), .write (dst + n) v] := by
  unfold xformByte xorByte at h
  cases hread : memRead (src + n) x.port with
  | error f => simp [hread] at h
  | ok r =>
    obtain ⟨b, q⟩ := r
    cases hwrite : memWrite (dst + n) (b ^^^ (prgaStep x.cipher).2) q with
    | error f => simp [hread, hwrite] at h
    | ok p =>
      simp only [hread, hwrite, Except.ok.injEq] at h
      refine ⟨b ^^^ (prgaStep x.cipher).2, ?_⟩
      rw [← h, memWrite_trace hwrite, memRead_port hread, List.append_assoc]
      rfl

/-- Each access that `count` bytes from byte `n` on add is at one of those bytes of the source or of the destination,
whatever the memory's form: the addresses are sums of natural numbers. -/
theorem xformBytes_access {src dst count n : Nat} {x y : Transform} (h : xformBytes src dst count n x = .ok y)
    {c : Access} (hc : c ∈ y.port.trace) :
    c ∈ x.port.trace ∨ ∃ m, n ≤ m ∧ m < n + count ∧ (c = .read (src + m) ∨ ∃ v, c = .write (dst + m) v) := by
  induction count generalizing n x with
  | zero => cases h; exact .inl hc
  | succ count ih =>
    cases hz : xformByte src dst n x with
    | error f => simp [xformBytes, hz] at h
    | ok z =>
      simp only [xformBytes, hz] at h
      obtain ⟨v, htrace⟩ := xformByte_trace hz
      obtain hold | ⟨m, hlo, hhi, haccess⟩ := ih h
      · simp only [htrace, List.mem_append, List.mem_cons, List.not_mem_nil, or_false] at hold
        obtain hbefore | hread | hwrite := hold
        · exact .inl hbefore
        · exact .inr ⟨n, le_rfl, by omega, .inl hread⟩
        · exact .inr ⟨n, le_rfl, by omega, .inr ⟨v, hwrite⟩⟩
      · exact .inr ⟨m, by omega, by omega, haccess⟩

/-- The accesses of an INIT that passes its tests. -/
theorem traffic_init_runs {s : State} (h : InitRuns s) : traffic .init s = .ok (initTraffic s) :=
  (exec_traffic_of_run (i := .init) (runInit_runs h)).2

/-- The accesses of an XFORM that passes its tests lie in its two buffers, whatever the memory's form. -/
theorem traffic_xform_runs {s : State} (h : XformRuns s) :
    ∃ l, traffic .xform s = .ok l ∧
      ∀ c, c ∈ l → ∃ n, n < lenOf s ∧ (c = .read (srcOf s + n) ∨ ∃ v, c = .write (dstOf s + n) v) := by
  obtain ⟨hf, hk, hs, hd, ho⟩ := xformRuns_iff.mp h
  obtain ⟨x, hx⟩ := xformBytes_total (src := srcOf s) (dst := dstOf s) (lenOf s) 0 ⟨s.cipher, portOf s⟩
    h.srcInRange h.dstInRange
  have hrun : runXform s = .ok (done { s with cipher := x.cipher, mem := x.port.mem }, x.port.trace) := by
    simp [runXform, hf, hk, inRange_eq_true.mpr hs, inRange_eq_true.mpr hd, ho, hx]
  refine ⟨_, (exec_traffic_of_run (i := .xform) hrun).2, fun c hc => ?_⟩
  obtain hnone | ⟨n, -, hn, haccess⟩ := xformBytes_access hx hc
  · cases hnone
  · exact ⟨n, by omega, haccess⟩

/-- Settles O32: the test is `inRange_eq_true`, the refusals are `runInit_range` and `runXform_range`, and the addresses of
the accesses are those of `mem_initTraffic` and `traffic_xform_runs`. -/
theorem rangeRule : Obligations.RangeRule := by
  refine ⟨fun _ _ => inRange_eq_true, fun base => inRange_eq_true.mpr ?empty,
    fun s hf => ⟨fun hlo hhi hr => ?initRefused, fun hk hr => ?xformRefused⟩,
    fun s h => ⟨_, traffic_init_runs h, fun _ => mem_initTraffic h.keyLegal.1⟩, fun s h => traffic_xform_runs h⟩
  case empty => exact base.isLt.le
  case initRefused => exact exec_traffic_of_run (i := .init) (runInit_range hf ⟨hlo, hhi⟩ hr)
  case xformRefused => exact exec_traffic_of_run (i := .xform) (runXform_range hf hk hr)

end Sys2Proof.Machine
end

-- Proofs of the statements about a write to CMD (30_encoding.md): the dispatch on the word, and how a command ends.
section
namespace Sys2Proof.Machine

/-! ### The word (30_encoding.md R52, R54) -/

/-- A word other than the three command words is illegal. -/
theorem decode_eq_illegal {w : Word} (h1 : w ≠ 1) (h2 : w ≠ 2) (h3 : w ≠ 3) : decode w = .error (.illegal w) := by
  rw [decode_eq, if_neg h1, if_neg h2, if_neg h3]

/-- A step with a write to CMD waiting is that write, on the state with the event taken. -/
theorem step_commandWrite {s : State} {w : Word} {rest : List HostEvent}
    (h : s.inbox = .transaction (.write .cmd w) :: rest) : step s = commandWrite w { s with inbox := rest } :=
  step_cons h

/-- Settles O4: the word decodes to `illegal` (`decode_eq_illegal`), and `refuse` writes the outcome and nothing else. -/
theorem illegalWordRefused : Obligations.IllegalWordRefused := by
  intro s w rest hin hf h1 h2 h3
  exact (step_commandWrite hin).trans (commandWrite_illegal hf (decode_eq_illegal h1 h2 h3))

/-! ### The dispatch and the three endings (30_encoding.md R58) -/

/-- What a write to CMD does, in every state and for every word. -/
theorem commandWrite_eq (w : Word) (s : State) :
    commandWrite w s =
      if s.fatal = true then .next s
      else if w = 1 then exec .init s
      else if w = 2 then exec .xform s
      else if w = 3 then exec .clear s
      else .next (refuse .illegal w s) := by
  rw [commandWrite, decode_eq]
  split_ifs with hfatal hinit hxform hclear <;> rfl

/-- How a write to CMD in the state `s`, not faulted, may leave the block: completed, refused with a recoverable code, or
in the fatal fault (60_exceptions.md R113 to R115). -/
def CommandEnding (s t : State) : Prop :=
  (t.err = .ok ∧ t.errInfo = 0 ∧ t.fatal = false) ∨
  (∃ e info, e ≠ .ok ∧ e ≠ .overlap ∧ t = refuse e info s) ∨
  t = fatalFault .overlap 0 s

/-- `done()` completes, whatever the command has changed, if it has left `FATAL` at 0 (60_exceptions.md R115). -/
theorem CommandEnding.of_done (s : State) {u : State} (hf : u.fatal = false) : CommandEnding s (done u) :=
  .inl ⟨rfl, rfl, hf⟩

/-- A refusal with a recoverable code is an ending (60_exceptions.md R113). -/
theorem CommandEnding.of_refuse {e : ErrCode} (info : Word) (s : State) (hok : e ≠ .ok) (hov : e ≠ .overlap) :
    CommandEnding s (refuse e info s) :=
  .inr (.inl ⟨e, info, hok, hov, rfl⟩)

/-- Each command of a block that is not faulted has one of the three endings. -/
theorem exec_ending {i : Instr} {s t : State} (hf : s.fatal = false) (h : exec i s = .next t) :
    CommandEnding s t := by
  cases i with
  | init =>
    obtain ⟨hf', -⟩ | ⟨-, -, rfl⟩ | ⟨-, -, -, rfl⟩ | ⟨-, rfl⟩ := execInit_next h
    · simp [hf] at hf'
    · exact .of_refuse _ _ (by decide) (by decide)
    · exact .of_refuse _ _ (by decide) (by decide)
    · exact .of_done _ hf
  | xform =>
    obtain ⟨hf', -⟩ | ⟨-, -, rfl⟩ | ⟨-, -, -, rfl⟩ | ⟨-, -, -, -, rfl⟩ | ⟨-, x, -, rfl⟩ := execXform_next h
    · simp [hf] at hf'
    · exact .of_refuse _ _ (by decide) (by decide)
    · exact .of_refuse _ _ (by decide) (by decide)
    · exact .inr (.inr rfl)
    · exact .of_done _ hf
  | clear =>
    obtain ⟨hf', -⟩ | ⟨-, rfl⟩ := execClear_next h
    · simp [hf] at hf'
    · exact .of_done _ hf

/-- A write to CMD of any word has one of the three endings; an illegal word is refused. -/
theorem commandWrite_ending {w : Word} {s t : State} (hf : s.fatal = false) (h : commandWrite w s = .next t) :
    CommandEnding s t := by
  cases hd : decode w with
  | ok i => exact exec_ending hf (commandWrite_ok hf hd ▸ h)
  | error bad =>
    obtain ⟨v⟩ := bad
    rw [commandWrite_illegal hf hd] at h
    cases h
    exact .of_refuse _ _ (by decide) (by decide)

/-- Settles O6: the dispatch is `commandWrite_eq`, the endings are `commandWrite_ending`. -/
theorem cmdWriteDispatch : Obligations.CmdWriteDispatch := by
  intro s w rest hin
  rw [step_commandWrite hin]
  exact ⟨commandWrite_eq w _, fun hf _ ht => commandWrite_ending hf ht⟩

end Sys2Proof.Machine
end

-- Proof of the statement about one round of the key schedule (40_key_schedule.md R71).
section
namespace Sys2Proof.Machine

/-- Settles O22: the key byte exists (`keyByte_inRange`), so the round is `ksaRound_ok`; its table is one swap
(`Table.entry_swap`, `Table.Bijection.swap`), and its accumulator is a sum of bytes. -/
theorem ksaRoundRule : Obligations.KsaRoundRule := by
  intro k keyaddr r x hk _ hr _
  refine ⟨_, ksaRound_ok x (keyByte_inRange r hk hr), ?accumulator, ?exchanged, rfl, rfl, ?bijection⟩
  case accumulator => simp only [BitVec.toNat_add, Nat.mod_add_mod]
  case exchanged => exact fun a => congrFun (Table.entry_swap x.table _ _) a
  case bijection => exact Table.Bijection.swap _ _

end Sys2Proof.Machine
end

-- Proofs of the statements about the keystream and the transform (41_keystream.md): one step of the generator, one byte of
-- the data path, the Overlap Guard, and the bytes a transform touches.
section
namespace Sys2Proof.Machine

open Sys2Proof.Reference

/-! ### One step and one byte (41_keystream.md R81, R82) -/

/-- Settles O26: the new table is one swap (`Table.entry_swap`, `Table.Bijection.swap`), and the sums modulo 256 are those
of bytes. -/
theorem prgaStepRule : Obligations.PrgaStepRule := by
  intro c
  refine ⟨BitVec.toNat_add .., BitVec.toNat_add .., ?exchanged, ?keystreamByte, ?bijection⟩
  case exchanged => exact fun a => congrFun (Table.entry_swap c.table _ _) a
  case keystreamByte => exact congrArg (prgaStep c).1.table.entry (BitVec.eq_of_toNat_eq (by simp [prgaStep]))
  case bijection => exact Table.Bijection.swap _ _

/-- Settles O27: both addresses exist, so the byte is `xorByte_ok`, and the memory after it is `Memory.byteAt_setByte`. -/
theorem xorByteRule : Obligations.XorByteRule := by
  intro sa da key p hsa hda hwf
  exact ⟨_, xorByte_ok key p hsa hda, fun a => Memory.byteAt_setByte da _ a hwf, rfl⟩

/-! ### The Overlap Guard (41_keystream.md R83) -/

/-- Two ranges of one length share an address exactly when each starts before the other ends: then the greater start is
shared. -/
theorem exists_shared_address_iff {src dst len : Nat} :
    (∃ a, (src ≤ a ∧ a < src + len) ∧ (dst ≤ a ∧ a < dst + len)) ↔
      0 < len ∧ src < dst + len ∧ dst < src + len := by
  constructor
  · rintro ⟨a, hsrc, hdst⟩
    omega
  · intro h
    exact ⟨max src dst, by omega, by omega⟩

/-- The guard as a distance. -/
theorem partialOverlap_iff_distance {src dst len : Nat} :
    partialOverlap src dst len = true ↔ 0 < distance src dst ∧ distance src dst < len := by
  rw [partialOverlap_eq_true, distance]
  omega

/-- The guard as a shared address of two buffers with different starts. -/
theorem partialOverlap_iff_shared {src dst len : Nat} :
    partialOverlap src dst len = true ↔
      src ≠ dst ∧ ∃ a, (src ≤ a ∧ a < src + len) ∧ (dst ≤ a ∧ a < dst + len) := by
  rw [partialOverlap_eq_true, exists_shared_address_iff]
  omega

/-- The guard does not tell source from destination. -/
theorem partialOverlap_comm (src dst len : Nat) : partialOverlap src dst len = partialOverlap dst src len := by
  rw [Bool.eq_iff_iff, partialOverlap_eq_true, partialOverlap_eq_true]
  omega

/-- The guard never reports buffers of at most one byte: with different starts they are disjoint. -/
theorem partialOverlap_of_len_le_one {src dst len : Nat} (h : len ≤ 1) : partialOverlap src dst len = false := by
  rw [← Bool.not_eq_true, partialOverlap_eq_true]
  omega

/-- Settles O28: each clause is a lemma on `partialOverlap`. -/
theorem overlapGuard : Obligations.OverlapGuard := fun src dst len =>
  ⟨partialOverlap_iff_distance, partialOverlap_iff_shared, partialOverlap_comm src dst len,
    partialOverlap_of_len_le_one (Nat.zero_le 1), partialOverlap_of_len_le_one le_rfl⟩

/-! ### The bytes a transform touches (41_keystream.md R85) -/

/-- The accesses of a completed transform: a read and a write for each byte. -/
theorem mem_xformTraffic {s : State} {c : Access} :
    c ∈ xformTraffic s ↔
      ∃ n, n < lenOf s ∧ (c = .read (srcOf s + n) ∨ c = .write (dstOf s + n) (outputByte s n)) := by
  simp only [xformTraffic, List.mem_flatMap, List.mem_range, List.mem_cons, List.not_mem_nil, or_false]

/-- The addresses read are those of the source. -/
theorem read_mem_xformTraffic {s : State} {a : Nat} :
    .read a ∈ xformTraffic s ↔ srcOf s ≤ a ∧ a < srcOf s + lenOf s := by
  simp only [mem_xformTraffic, Access.read.injEq, reduceCtorEq, or_false]
  constructor
  · rintro ⟨n, hn, rfl⟩
    omega
  · rintro ⟨hlo, hhi⟩
    exact ⟨a - srcOf s, by omega, by omega⟩

/-- The addresses written are those of the destination. -/
theorem write_mem_xformTraffic {s : State} {a : Nat} :
    (∃ v, .write a v ∈ xformTraffic s) ↔ dstOf s ≤ a ∧ a < dstOf s + lenOf s := by
  simp only [mem_xformTraffic, Access.write.injEq, reduceCtorEq, false_or]
  constructor
  · rintro ⟨-, n, hn, rfl, -⟩
    omega
  · rintro ⟨hlo, hhi⟩
    exact ⟨outputByte s (a - dstOf s), a - dstOf s, by omega, by omega, rfl⟩

/-- Settles O33: `runXform_runs` gives the next state's memory and the accesses, whose addresses are
`read_mem_xformTraffic` and `write_mem_xformTraffic`. -/
theorem xformTouchesItsBuffersOnly : Obligations.XformTouchesItsBuffersOnly := by
  intro s h hwf
  obtain ⟨m, hrun, -, hmem⟩ := runXform_runs h hwf
  obtain ⟨hexec, htraffic⟩ := exec_traffic_of_run (i := .xform) hrun
  exact ⟨_, _, hexec, htraffic, fun _ => read_mem_xformTraffic, fun _ => write_mem_xformTraffic,
    fun a hout => (hmem a).trans (if_neg hout)⟩

end Sys2Proof.Machine
end

-- Proofs of the statements about host access and CLEAR (42_clear_and_host_access.md): what a read returns, what a write to an
-- operand register stores, and what CLEAR leaves.
section
namespace Sys2Proof.Machine

/-! ### Reads (42_clear_and_host_access.md R101) -/

/-- A step with a read waiting is that read, in every state. -/
theorem step_read {s : State} {r : Reg} {rest : List HostEvent} (h : s.inbox = .transaction (.read r) :: rest) :
    step s = .next (hostRead r { s with inbox := rest }) :=
  step_cons h

/-- STATUS as the word of its value (10_state.md R23). -/
theorem statusWord_eq_ofNat (s : State) :
    statusWord s = BitVec.ofNat 32 (s.err.code.toNat * 16 + s.fatal.toNat * 2 + s.keyed.toNat) := by
  rw [← statusWord_toNat, BitVec.ofNat_toNat, BitVec.setWidth_eq]

/-- Settles O13: the step is `hostRead`, which appends the register's value to the replies; for STATUS that value is
`statusWord_eq_ofNat`, for the others the field itself. -/
theorem hostReadReturnsRegister : Obligations.HostReadReturnsRegister := by
  intro s r rest hin
  rw [step_read hin]
  cases r
  case status => simp only [hostRead, readRegister, statusWord_eq_ofNat]
  all_goals rfl

/-! ### Writes to the operand registers (42_clear_and_host_access.md R102) -/

/-- A write to a register other than CMD, in a block that is not faulted. -/
theorem hostWrite_not_faulted {r : Reg} (v : Word) {s : State} (hf : s.fatal = false) (hr : r ≠ .cmd) :
    hostWrite r v s = .next (writeRegister r v s) := by
  simp [hostWrite_register v s hr, hf]

/-- In a block that is not faulted, a step with a write to a register other than CMD waiting is that write. -/
theorem step_writeRegister {s : State} {r : Reg} {v : Word} {rest : List HostEvent} (hf : s.fatal = false)
    (hr : r ≠ .cmd) (h : s.inbox = .transaction (.write r v) :: rest) :
    step s = .next (writeRegister r v { s with inbox := rest }) :=
  (step_cons h).trans (hostWrite_not_faulted v hf hr)

/-- Settles O15: each of the five is `step_writeRegister`, whose `writeRegister` sets that one field; a faulted block
ignores the write (`step_write_faulted`). -/
theorem operandWriteStores : Obligations.OperandWriteStores := fun _ _ _ =>
  ⟨fun hf => ⟨step_writeRegister hf (by decide), step_writeRegister hf (by decide), step_writeRegister hf (by decide),
    step_writeRegister hf (by decide), step_writeRegister hf (by decide)⟩,
   fun hf _ hin => step_write_faulted hin hf⟩

/-! ### CLEAR (42_clear_and_host_access.md R100) -/

/-- In a block that is not faulted CLEAR zeroes the Cipher State and completes. -/
theorem execClear_runs {s : State} (hf : s.fatal = false) :
    exec .clear s = .next (done { s with cipher := Cipher.zero, keyed := false }) := by
  obtain ⟨hf', -⟩ | ⟨-, hrun⟩ := runClear_cases s
  · simp [hf] at hf'
  · exact (exec_traffic_of_run (i := .clear) hrun).1

/-- A faulted block ignores CLEAR (60_exceptions.md R119). -/
theorem execClear_faulted {s : State} (hf : s.fatal = true) : exec .clear s = .next s := by
  obtain ⟨-, hrun⟩ | ⟨hf', -⟩ := runClear_cases s
  · exact (exec_traffic_of_run (i := .clear) hrun).1
  · simp [hf] at hf'

/-- CLEAR makes no access, in any state (20_memory.md R39). -/
theorem traffic_clear (s : State) : traffic .clear s = .ok [] := by
  obtain ⟨-, hrun⟩ | ⟨-, hrun⟩ := runClear_cases s
  · exact (exec_traffic_of_run (i := .clear) hrun).2
  · exact (exec_traffic_of_run (i := .clear) hrun).2

/-- An XFORM on a block that holds no key is refused before any other test (41_keystream.md R80, 60_exceptions.md R116). -/
theorem execXform_notkeyed {s : State} (hf : s.fatal = false) (hk : s.keyed = false) :
    exec .xform s = .next (refuse .notkeyed 0 s) := by
  have hrun : runXform s = .ok (refuse .notkeyed 0 s, []) := by simp [runXform, hf, hk]
  exact (exec_traffic_of_run (i := .xform) hrun).1

/-- Settles O41: the next state is that of `execClear_runs`, whose table's entries are `Table.entry_zero`; it is neither
faulted nor keyed, so an XFORM on it is `execXform_notkeyed`. -/
theorem clearZeroesCipherState : Obligations.ClearZeroesCipherState :=
  ⟨fun _ hf => ⟨_, execClear_runs hf, Table.entry_zero, rfl, rfl, rfl, execXform_notkeyed hf rfl⟩,
   fun _ hf => execClear_faulted hf, traffic_clear⟩

end Sys2Proof.Machine
end

-- Proofs of the statements about how a command ends (60_exceptions.md): the faulted block, what ERRINFO holds beside each
-- code, and the order of the tests of every command.
section
namespace Sys2Proof.Machine

open Sys2Proof.Reference

/-! ### The faulted block (60_exceptions.md R119) -/

/-- In a faulted block that the invariant admits the code is OVERLAP and the block is keyed, so STATUS is 2 * 16 + 2 + 1. -/
theorem statusWord_faulted {s : State} (hinv : s.Inv) (hf : s.fatal = true) : statusWord s = 0x00000023 := by
  obtain ⟨herr, hkeyed⟩ := hinv.fatal_overlap_keyed hf
  rw [statusWord_eq_ofNat, herr, hf, hkeyed]
  rfl

/-- A step leaves the faulted state by a Reset only (10_state.md R13: the second clause of O9). -/
theorem step_leaves_faulted {s t : State} {e : HostEvent} {rest : List HostEvent} (h : s.inbox = e :: rest)
    (ht : step s = .next t) (hf : s.fatal = true) (hclear : t.fatal = false) : e = .transaction .reset := by
  obtain ⟨-, hfalls, -⟩ := fatalFlagSetAndCleared.1 s t e rest h ht
  exact hfalls hf hclear

/-- Settles O8: the write is `step_write_faulted`, the read `step_read`, STATUS `statusWord_faulted`, the way out
`step_leaves_faulted`, and the Reset `step_reset`. -/
theorem faultedBlockIgnoresWrites : Obligations.FaultedBlockIgnoresWrites := fun _ hf =>
  ⟨fun _ _ _ hin => step_write_faulted hin hf, fun _ _ hin => step_read hin, fun hinv => statusWord_faulted hinv hf,
    fun _ _ _ hin ht => step_leaves_faulted hin ht hf, fun _ hin => ⟨_, step_reset hin, rfl, rfl⟩⟩

/-! ### What ERRINFO holds beside each code (60_exceptions.md R112) -/

/-- The word an illegal word is refused with is that word (30_encoding.md R54). -/
theorem eq_of_decode_illegal {w v : Word} (h : decode w = .error (.illegal v)) : v = w := by
  rw [decode_eq] at h
  split_ifs at h
  cases h
  rfl

/-- No command writes an operand register (10_state.md R16). -/
theorem exec_regs {i : Instr} {s t : State} (h : exec i s = .next t) : t.regs = s.regs := by
  cases i with
  | init => obtain ⟨-, rfl⟩ | ⟨-, -, rfl⟩ | ⟨-, -, -, rfl⟩ | ⟨-, rfl⟩ := execInit_next h <;> rfl
  | xform =>
    obtain ⟨-, rfl⟩ | ⟨-, -, rfl⟩ | ⟨-, -, -, rfl⟩ | ⟨-, -, -, -, rfl⟩ | ⟨-, x, -, rfl⟩ := execXform_next h <;> rfl
  | clear => obtain ⟨-, rfl⟩ | ⟨-, rfl⟩ := execClear_next h <;> rfl

/-- What a command of a block that is not faulted records: KEYSIZE with the refused key length, or another code with 0. No
command records ILLEGAL. -/
theorem exec_errInfo {i : Instr} {s t : State} (hf : s.fatal = false) (h : exec i s = .next t) :
    (t.err = .keysize ∧ t.errInfo = s.regs.keyLen ∧ ¬ (1 ≤ keylenOf s ∧ keylenOf s ≤ 256)) ∨
    (t.err ≠ .keysize ∧ t.err ≠ .illegal ∧ t.errInfo = 0) := by
  cases i with
  | init =>
    obtain ⟨hf', -⟩ | ⟨-, hk, rfl⟩ | ⟨-, -, -, rfl⟩ | ⟨-, rfl⟩ := execInit_next h
    · simp [hf] at hf'
    · exact .inl ⟨rfl, rfl, hk⟩
    all_goals exact .inr ⟨nofun, nofun, rfl⟩
  | xform =>
    obtain ⟨hf', -⟩ | ⟨-, -, rfl⟩ | ⟨-, -, -, rfl⟩ | ⟨-, -, -, -, rfl⟩ | ⟨-, x, -, rfl⟩ := execXform_next h
    · simp [hf] at hf'
    all_goals exact .inr ⟨nofun, nofun, rfl⟩
  | clear =>
    obtain ⟨hf', -⟩ | ⟨-, rfl⟩ := execClear_next h
    · simp [hf] at hf'
    · exact .inr ⟨nofun, nofun, rfl⟩

/-- Settles O11: a word that is a command records what `exec_errInfo` says, any other is refused with itself. -/
theorem errorValueRecorded : Obligations.ErrorValueRecorded := by
  intro s t w rest hin hf ht
  rw [step_commandWrite hin] at ht
  have hfu : ({ s with inbox := rest } : State).fatal = false := hf
  cases hd : decode w with
  | ok i =>
    rw [commandWrite_ok hfu hd] at ht
    have hregs := exec_regs ht
    obtain ⟨herr, hinfo, hk⟩ | ⟨hkeysize, hillegal, hinfo⟩ := exec_errInfo hfu ht
    · have hlen : s.regs.keyLen.toNat = 0 ∨ 257 ≤ s.regs.keyLen.toNat := by
        simp only [keylenOf] at hk
        omega
      exact ⟨fun _ => ⟨hinfo, hinfo ▸ hlen⟩, by simp [herr], fun h => absurd herr h, hregs⟩
    · exact ⟨fun h => absurd h hkeysize, fun h => absurd h hillegal, fun _ _ => hinfo, hregs⟩
  | error bad =>
    obtain ⟨v⟩ := bad
    obtain rfl := eq_of_decode_illegal hd
    rw [commandWrite_illegal hfu hd] at ht
    cases ht
    exact ⟨nofun, fun _ => rfl, fun _ h => absurd rfl h, rfl⟩

/-! ### The order of the tests (60_exceptions.md R116) -/

/-- A step with a command's word waiting for CMD is that command, in a block that is not faulted (30_encoding.md R58). -/
theorem step_command {i : Instr} {s : State} {w : Word} {rest : List HostEvent} (hf : s.fatal = false)
    (hd : decode w = .ok i) (h : s.inbox = .transaction (.write .cmd w) :: rest) :
    step s = exec i { s with inbox := rest } :=
  (step_commandWrite h).trans (commandWrite_ok hf hd)

/-- INIT tests the key length first. -/
theorem execInit_keysize {s : State} (hf : s.fatal = false) (hk : keylenOf s < 1 ∨ 256 < keylenOf s) :
    exec .init s = .next (refuse .keysize s.regs.keyLen s) := by
  have hout : ¬ (1 ≤ keylenOf s ∧ keylenOf s ≤ 256) := by omega
  obtain ⟨hf', -⟩ | ⟨-, -, hrun⟩ | ⟨-, hk', -⟩ | ⟨hruns, -⟩ := runInit_cases s
  · simp [hf] at hf'
  · exact (exec_traffic_of_run (i := .init) hrun).1
  · exact absurd hk' hout
  · exact absurd hruns.keyLegal hout

/-- INIT tests the key's range second. -/
theorem execInit_range {s : State} (hf : s.fatal = false) (hk : 1 ≤ keylenOf s ∧ keylenOf s ≤ 256)
    (hr : 2 ^ 32 < keyaddrOf s + keylenOf s) : exec .init s = .next (refuse .range 0 s) :=
  (exec_traffic_of_run (i := .init) (runInit_range hf hk hr)).1

/-- An INIT that passes its tests completes. -/
theorem execInit_completes {s : State} (h : InitRuns s) : ∃ t, exec .init s = .next t ∧ t.err = .ok :=
  ⟨_, (exec_traffic_of_run (i := .init) (runInit_runs h)).1, rfl⟩

/-- XFORM tests the range of both buffers after the key and before the Overlap Guard. -/
theorem execXform_range {s : State} (hf : s.fatal = false) (hk : s.keyed = true)
    (hr : 2 ^ 32 < srcOf s + lenOf s ∨ 2 ^ 32 < dstOf s + lenOf s) : exec .xform s = .next (refuse .range 0 s) :=
  (exec_traffic_of_run (i := .xform) (runXform_range hf hk hr)).1

/-- An XFORM that passes its tests completes, whatever the memory's form. -/
theorem execXform_completes {s : State} (h : XformRuns s) : ∃ t, exec .xform s = .next t ∧ t.err = .ok := by
  obtain ⟨hf, hk, hs, hd, ho⟩ := xformRuns_iff.mp h
  obtain ⟨hf', -⟩ | ⟨-, hk', -⟩ | ⟨-, -, hout, -⟩ | ⟨-, -, -, ho', -⟩ | ⟨-, x, -, hrun⟩ := runXform_cases s
  · simp [hf] at hf'
  · simp [hk] at hk'
  · exact absurd ⟨hs, hd⟩ hout
  · simp [ho] at ho'
  · exact ⟨_, (exec_traffic_of_run (i := .xform) hrun).1, rfl⟩

/-- The guard passes the same start, and starts at least the length apart (41_keystream.md R83). -/
theorem partialOverlap_eq_false_of_distance {src dst len : Nat} (h : distance src dst = 0 ∨ len ≤ distance src dst) :
    partialOverlap src dst len = false := by
  rw [← Bool.not_eq_true, partialOverlap_iff_distance]
  omega

/-- Settles O30: the word selects the command (`step_command`), and each line of R116 is one lemma on that command. -/
theorem admissionOrder : Obligations.AdmissionOrder := by
  intro s w rest hin
  refine ⟨step_write_faulted hin, fun hf => ?_⟩
  have hfu : ({ s with inbox := rest } : State).fatal = false := hf
  refine ⟨?illegal, ?init, ?xform, ?clear⟩
  case illegal =>
    intro h1 h2 h3
    exact illegalWordRefused s w rest hin hf h1 h2 h3
  case init =>
    rintro rfl
    rw [step_command (i := .init) hf rfl hin]
    exact ⟨execInit_keysize hfu, fun hlo hhi => execInit_range hfu ⟨hlo, hhi⟩,
      fun hlo hhi hr => execInit_completes ⟨hfu, ⟨hlo, hhi⟩, hr⟩⟩
  case xform =>
    rintro rfl
    rw [step_command (i := .xform) hf rfl hin]
    exact ⟨execXform_notkeyed hfu, execXform_range hfu,
      fun hk hs hd hpos hlt => execXform_overlap hk hfu hs hd (partialOverlap_iff_distance.mpr ⟨hpos, hlt⟩),
      fun hk hs hd hdist =>
        execXform_completes (xformRuns_iff.mpr ⟨hfu, hk, hs, hd, partialOverlap_eq_false_of_distance hdist⟩)⟩
  case clear =>
    rintro rfl
    rw [step_command (i := .clear) hf rfl hin]
    exact ⟨_, execClear_runs hfu, rfl⟩

end Sys2Proof.Machine
end

-- Proof of the statement about reset (70_reset_and_hazards.md R130): what a Reset sets, and that nothing else acts on a
-- faulted block.
section
namespace Sys2Proof.Machine

/-- A host transaction other than `Reset` leaves a faulted block and the memory as they are: a write is ignored and a read
only replies (60_exceptions.md R119). -/
theorem step_faulted_frame {s t : State} {tr : HostTransaction} {rest : List HostEvent}
    (h : s.inbox = .transaction tr :: rest) (hf : s.fatal = true) (hr : tr ≠ .reset) (ht : step s = .next t) :
    t = { s with inbox := rest, replies := t.replies } := by
  cases tr with
  | write r v =>
    cases (step_write_faulted h hf).symm.trans ht
    rfl
  | read r =>
    cases (step_read h).symm.trans ht
    rfl
  | reset => exact absurd rfl hr

/-- After a `Reset` the code is `OK` and both flags are clear, so STATUS reads 0 (10_state.md R23). -/
theorem readRegister_status_hostReset (s : State) : readRegister .status (hostReset s) = 0 := by
  rw [readRegister, statusWord_eq_ofNat, hostReset_err, hostReset_fatal, hostReset_keyed]
  rfl

/-- Settles O17: a faulted block keeps its state by `step_faulted_frame`; a Reset is `step_reset`, whose table's entries are
`Table.entry_zero` and whose STATUS is `readRegister_status_hostReset`. -/
theorem resetTransaction : Obligations.ResetTransaction :=
  ⟨fun _ _ _ _ hin hf hr ht => step_faulted_frame hin hf hr ht,
   fun _ _ hin => ⟨_, step_reset hin, Table.entry_zero, rfl, rfl, rfl, rfl, rfl, rfl, rfl, rfl,
    readRegister_status_hostReset _, rfl, rfl⟩⟩

end Sys2Proof.Machine
end

-- Proofs of the statements about words and packed forms (30_encoding.md): the packed form of a register access loses nothing,
-- and a word is a command exactly when it is that command's word.
section
namespace Sys2Proof.Machine

/-! ### The packed form (30_encoding.md R50) -/

/-- A register is the one its index selects (10_state.md R22). -/
@[simp] theorem ofIndex_index (r : Reg) : Reg.ofIndex r.index = r := by
  cases r <;> rfl

/-- Every index is that of the register it selects. -/
@[simp] theorem index_ofIndex (ra : BitVec 3) : (Reg.ofIndex ra).index = ra := by
  decide +revert

/-- A packed number by its fields: `we` in bit 35, `ra` in bits 34:32, `wdata` in bits 31:0. -/
def packFields (we : Bool) (ra : BitVec 3) (wdata : Word) : BitVec 36 := BitVec.ofBool we ++ (ra ++ wdata)

theorem encodePacked_write (r : Reg) (v : Word) : encodePacked (.write r v) = some (packFields true r.index v) := rfl

theorem encodePacked_read (r : Reg) : encodePacked (.read r) = some (packFields false r.index 0) := rfl

@[simp] theorem packFields_we (we : Bool) (ra : BitVec 3) (v : Word) : (packFields we ra v).getLsbD 35 = we := by
  rw [packFields, BitVec.getLsbD_append]
  simp

@[simp] theorem packFields_ra (we : Bool) (ra : BitVec 3) (v : Word) : (packFields we ra v).extractLsb' 32 3 = ra := by
  rw [packFields, BitVec.extractLsb'_append_eq_of_add_le (by decide), BitVec.extractLsb'_append_eq_left]

@[simp] theorem packFields_wdata (we : Bool) (ra : BitVec 3) (v : Word) : (packFields we ra v).extractLsb' 0 32 = v := by
  rw [packFields, BitVec.extractLsb'_append_eq_of_add_le (by decide), BitVec.extractLsb'_append_eq_right]

/-- A 36-bit number is made of its three fields. -/
theorem packFields_fields (p : BitVec 36) :
    packFields (p.getLsbD 35) (p.extractLsb' 32 3) (p.extractLsb' 0 32) = p := by
  have hwe : BitVec.ofBool (p.getLsbD 35) = p.extractLsb' 35 1 := by
    ext n hn
    obtain rfl : n = 0 := by omega
    simp
  rw [packFields, BitVec.extractLsb'_append_extractLsb'_eq_extractLsb' (by decide), hwe]
  exact BitVec.extractLsb'_append_extractLsb' (w := 1) (len := 35)

/-- Reading back a number by its fields. -/
theorem decodePacked_packFields (we : Bool) (ra : BitVec 3) (v : Word) :
    decodePacked (packFields we ra v) = if we then .write (Reg.ofIndex ra) v else .read (Reg.ofIndex ra) := by
  simp only [decodePacked, packFields_we, packFields_ra, packFields_wdata]

/-- A number is well formed when it is a write, or its `wdata` is 0. -/
theorem packedWf_packFields (we : Bool) (ra : BitVec 3) (v : Word) :
    packedWf (packFields we ra v) = (we || v == 0) := by
  simp only [packedWf, packFields_we, packFields_wdata]

/-- A transaction is read back from its packed form. -/
theorem decodePacked_of_encodePacked {t : HostTransaction} {p : BitVec 36} (h : encodePacked t = some p) :
    decodePacked p = t ∧ packedWf p = true := by
  cases t with
  | write r v =>
    cases h
    exact ⟨(decodePacked_packFields true r.index v).trans (by simp), packedWf_packFields true r.index v⟩
  | read r =>
    cases h
    exact ⟨(decodePacked_packFields false r.index 0).trans (by simp), packedWf_packFields false r.index 0⟩
  | reset => cases h

/-- A well-formed number is the packed form of the transaction read from it. -/
theorem encodePacked_decodePacked {p : BitVec 36} (h : packedWf p = true) : encodePacked (decodePacked p) = some p := by
  rw [← packFields_fields p] at h ⊢
  generalize p.getLsbD 35 = we, p.extractLsb' 32 3 = ra, p.extractLsb' 0 32 = v at h ⊢
  rw [packedWf_packFields] at h
  rw [decodePacked_packFields]
  cases we with
  | true => simp [encodePacked_write]
  | false =>
    obtain rfl : v = 0 := by simpa using h
    simp [encodePacked_read]

/-- Settles O3: the round trip is `decodePacked_of_encodePacked` and `encodePacked_decodePacked`, and the fields are those of
`packFields`. -/
theorem packedFormRoundTrip : Obligations.PackedFormRoundTrip := by
  refine ⟨fun _ _ => decodePacked_of_encodePacked, fun _ => encodePacked_decodePacked, ?write, ?read⟩
  case write =>
    intro r v p h
    cases (encodePacked_write r v).symm.trans h
    exact ⟨packFields_we .., packFields_ra .., packFields_wdata ..⟩
  case read =>
    intro r p h
    cases (encodePacked_read r).symm.trans h
    exact ⟨packFields_we .., packFields_ra .., packFields_wdata ..⟩

/-! ### Strict decoding (30_encoding.md R51, R52, R54) -/

/-- The decoder gives a command back from its word. -/
@[simp] theorem decode_encode (i : Instr) : decode (encode i) = .ok i := by
  cases i <;> decide

/-- A word selects a command exactly when it is that command's word. -/
theorem decode_eq_ok_iff {w : Word} {i : Instr} : decode w = .ok i ↔ w = encode i := by
  constructor
  · intro h
    rw [decode_eq] at h
    split_ifs at h with h1 h2 h3 <;> cases h
    · exact h1
    · exact h2
    · exact h3
  · rintro rfl
    exact decode_encode i

/-- A word is refused with itself exactly when it is none of the three. -/
theorem decode_eq_illegal_iff {w : Word} :
    decode w = .error (.illegal w) ↔ w ≠ 0x00000001 ∧ w ≠ 0x00000002 ∧ w ≠ 0x00000003 := by
  constructor
  · intro h
    refine ⟨?_, ?_, ?_⟩ <;> rintro rfl <;> cases h
  · rintro ⟨h1, h2, h3⟩
    exact decode_eq_illegal h1 h2 h3

/-- A word is its fields `zero` and `op`. -/
theorem commandWord_fields (w : Word) : commandZero w ++ commandOp w = w :=
  BitVec.extractLsb'_append_extractLsb' (w := 24) (len := 8)

/-- A word is well formed exactly when it is a command's: with `zero` = 0, the three codes of `op` give the three words. -/
theorem commandWordWf_iff {w : Word} : commandWordWf w = true ↔ ∃ i, w = encode i := by
  constructor
  · intro h
    simp only [commandWordWf, Bool.and_eq_true, Bool.or_eq_true, beq_iff_eq] at h
    obtain ⟨hzero, (hop | hop) | hop⟩ := h <;> rw [← commandWord_fields w, hzero, hop]
    · exact ⟨.init, rfl⟩
    · exact ⟨.xform, rfl⟩
    · exact ⟨.clear, rfl⟩
  · rintro ⟨i, rfl⟩
    cases i <;> decide

/-- Settles O2: each clause is a lemma on `decode`. -/
theorem decodingIsStrict : Obligations.DecodingIsStrict := fun _ =>
  ⟨fun _ => decode_eq_ok_iff, decode_eq_illegal_iff, by simp only [commandWordWf_iff, decode_eq_ok_iff]⟩

/-- Settles O1: the words are decoded by the equalities of `decode_eq` (`decode_encode`, `decode_eq_illegal`); each packed form is
a closed number, which evaluates. -/
theorem commandWordsDecode : Obligations.CommandWordsDecode :=
  ⟨decode_encode .init, decode_encode .xform, decode_encode .clear,
    decode_eq_illegal (by decide) (by decide) (by decide), decode_eq_illegal (by decide) (by decide) (by decide),
    decode_eq_illegal (by decide) (by decide) (by decide), decode_eq_illegal (by decide) (by decide) (by decide),
    rfl, rfl, rfl, rfl, rfl, rfl, rfl, rfl, rfl, rfl⟩

/-! ### A step runs the decoded command (30_encoding.md R58) -/

/-- The command a load of a command's word places is that word (20_memory.md R43). -/
theorem withFetchWord_encode (s : State) (i : Instr) :
    s.withFetchWord 32 (encode i).toNat = { s with inbox := .transaction (.write .cmd (encode i)) :: s.inbox } := by
  cases i <;> rfl

/-- Settles O5: a word that decodes to a command runs it (`step_command`), and the word a load places is the command's own. -/
theorem stepRunsDecodedCommand : Obligations.StepRunsDecodedCommand := by
  refine ⟨fun s w rest i hin hf hd => step_command hf hd hin, fun s i hf => ?_⟩
  rw [withFetchWord_encode]
  exact step_command (rest := s.inbox) hf (decode_encode i) rfl

end Sys2Proof.Machine
end

-- Proofs of the statements about the block's invariant (10_state.md sections 1, 4 and 7, 60_exceptions.md section 1): every
-- step keeps it, and reset meets it.
section
namespace Sys2Proof.Machine

open Sys2Proof.Reference

/-! ### What keeps the invariant, update by update -/

/-- The invariant speaks of the block and the memory only: not of the operand registers, nor of what is the host's. -/
theorem State.Inv.of_block_eq {s t : State} (h : s.Inv) (hc : t.cipher = s.cipher) (hk : t.keyed = s.keyed)
    (hf : t.fatal = s.fatal) (he : t.err = s.err) (hi : t.errInfo = s.errInfo) (hm : t.mem = s.mem) : t.Inv := by
  obtain ⟨hbij, hzero, hfatal, hoverlap, hinfo, hmem⟩ := h
  exact ⟨by rwa [hk, hc], by rwa [hk, hc], by rwa [hf, he, hk], by rwa [hf, he], by rwa [he, hi], by rwa [hm]⟩

/-- An outcome other than OVERLAP, legal for its code, recorded in a block that is not faulted. -/
theorem State.Inv.recordOutcome {s : State} {e : ErrCode} {info : Word} (h : s.Inv) (hf : s.fatal = false)
    (he : e ≠ .overlap) (hinfo : errInfoLegal e info) : (recordOutcome e info s).Inv where
  keyed_bijection := h.keyed_bijection
  unkeyed_zero := h.unkeyed_zero
  fatal_overlap_keyed hfatal := by simp [hf] at hfatal
  overlap_fatal hoverlap := absurd hoverlap he
  errInfo_legal := hinfo
  mem_canonical := h.mem_canonical

/-- The fatal fault with OVERLAP in a keyed block (60_exceptions.md R114). -/
theorem State.Inv.fatalFault {s : State} (h : s.Inv) (hk : s.keyed = true) : (fatalFault .overlap 0 s).Inv where
  keyed_bijection := h.keyed_bijection
  unkeyed_zero := h.unkeyed_zero
  fatal_overlap_keyed _ := ⟨rfl, hk⟩
  overlap_fatal _ := rfl
  errInfo_legal := rfl
  mem_canonical := h.mem_canonical

/-- Another Cipher State and another memory, for a command of a block that is not faulted: the flag `KEYED` says what the
Cipher State must be. -/
theorem State.Inv.done {s : State} (hf : s.fatal = false) (hbij : s.keyed = true → s.cipher.table.Bijection)
    (hzero : s.keyed = false → s.cipher = Cipher.zero) (hmem : s.mem.wf = true) : (done s).Inv where
  keyed_bijection := hbij
  unkeyed_zero := hzero
  fatal_overlap_keyed hfatal := by simp [hf] at hfatal
  overlap_fatal := nofun
  errInfo_legal := rfl
  mem_canonical := hmem

/-- The reset state over a memory in canonical form (10_state.md R24). -/
theorem State.Inv.resetOver {m : Memory} (hm : m.wf = true) : (State.resetOver m).Inv :=
  State.Inv.done (s := State.resetOver m) rfl nofun (fun _ => rfl) hm

/-- A Reset keeps the memory, so its state meets the invariant (70_reset_and_hazards.md R130). -/
theorem State.Inv.hostReset {s : State} (hm : s.mem.wf = true) : (hostReset s).Inv :=
  (State.Inv.resetOver hm).of_block_eq rfl rfl rfl rfl rfl rfl

/-- A write of the host's own to the memory keeps its canonical form (20_memory.md R31). -/
theorem State.Inv.hostMemoryWrite {s : State} (h : s.Inv) (a : Word) (v : Byte) : (hostMemoryWrite a v s).Inv where
  keyed_bijection := h.keyed_bijection
  unkeyed_zero := h.unkeyed_zero
  fatal_overlap_keyed := h.fatal_overlap_keyed
  overlap_fatal := h.overlap_fatal
  errInfo_legal := h.errInfo_legal
  mem_canonical := Memory.wf_setByte v a.isLt h.mem_canonical

/-! ### The commands -/

/-- A scheduled table is a bijection (10_state.md R20). -/
theorem scheduled_bijection (m : Memory) (keyaddr k : Nat) : (scheduled m keyaddr k).table.Bijection := by
  simp only [Table.Bijection, scheduled, Table.entry_tableOf]
  exact schedule_bijective ..

/-- A key length that INIT refuses is a legal value beside KEYSIZE (60_exceptions.md R112). -/
theorem errInfoLegal_keysize {s : State} (h : ¬ (1 ≤ keylenOf s ∧ keylenOf s ≤ 256)) :
    errInfoLegal .keysize s.regs.keyLen := by
  simp only [errInfoLegal, keylenOf] at h ⊢
  omega

theorem execInit_inv {s t : State} (h : s.Inv) (ht : exec .init s = .next t) : t.Inv := by
  obtain ⟨-, rfl⟩ | ⟨hf, hk, rfl⟩ | ⟨hf, -, -, rfl⟩ | ⟨hruns, rfl⟩ := execInit_next ht
  · exact h
  · exact h.recordOutcome hf nofun (errInfoLegal_keysize hk)
  · exact h.recordOutcome hf nofun rfl
  · exact .done hruns.notFaulted (fun _ => scheduled_bijection ..) nofun h.mem_canonical

/-- The bytes of XFORM keep the canonical form of the memory. -/
theorem xformBytes_mem_wf {s : State} {x : Transform} (hruns : XformRuns s) (hwf : s.mem.wf = true)
    (hx : xformBytes (srcOf s) (dstOf s) (lenOf s) 0 ⟨s.cipher, portOf s⟩ = .ok x) : x.port.mem.wf = true := by
  obtain ⟨y, hy, -, hywf, -⟩ := xformBytes_start hruns hwf
  cases hx.symm.trans hy
  exact hywf

theorem execXform_inv {s t : State} (h : s.Inv) (ht : exec .xform s = .next t) : t.Inv := by
  obtain ⟨-, rfl⟩ | ⟨hf, -, rfl⟩ | ⟨hf, -, -, rfl⟩ | ⟨-, hk, -, -, rfl⟩ | ⟨hruns, x, hx, rfl⟩ := execXform_next ht
  · exact h
  · exact h.recordOutcome hf nofun rfl
  · exact h.recordOutcome hf nofun rfl
  · exact h.fatalFault hk
  · exact .done hruns.notFaulted (fun hk => xformBytes_bijection hx (h.keyed_bijection hk))
      (fun hk => by simp [hruns.isKeyed] at hk) (xformBytes_mem_wf hruns h.mem_canonical hx)

theorem execClear_inv {s t : State} (h : s.Inv) (ht : exec .clear s = .next t) : t.Inv := by
  obtain ⟨-, rfl⟩ | ⟨hf, rfl⟩ := execClear_next ht
  · exact h
  · exact .done hf nofun (fun _ => rfl) h.mem_canonical

/-- Every command keeps the invariant. -/
theorem exec_inv {i : Instr} {s t : State} (h : s.Inv) (ht : exec i s = .next t) : t.Inv := by
  cases i with
  | init => exact execInit_inv h ht
  | xform => exact execXform_inv h ht
  | clear => exact execClear_inv h ht

/-! ### Every step -/

/-- An illegal word is a legal value beside ILLEGAL (60_exceptions.md R112). -/
theorem errInfoLegal_illegal {w v : Word} (h : decode w = .error (.illegal v)) : errInfoLegal .illegal v := by
  obtain rfl := eq_of_decode_illegal h
  exact decode_eq_illegal_iff.mp h

/-- Settles O45: with nothing waiting the state stays; each event keeps the invariant by the lemma on its update. -/
theorem everyStepKeepsInvariant : Obligations.EveryStepKeepsInvariant := by
  intro s t h ht
  cases hin : s.inbox with
  | nil =>
    cases (step_nil hin).symm.trans ht
    exact h
  | cons e rest =>
    obtain ⟨u, hu, hcases⟩ := step_next hin ht
    have hinv : u.Inv := by
      subst hu
      exact h.of_block_eq rfl rfl rfl rfl rfl rfl
    have hfu : u.fatal = s.fatal := by rw [hu]
    obtain ⟨r, v, -, -, rfl⟩ | ⟨w, i, -, -, -, hx⟩ | ⟨w, v, -, hf, hd, rfl⟩ | ⟨r, v, -, -, -, rfl⟩ | ⟨r, -, rfl⟩ |
      ⟨-, rfl⟩ | ⟨a, v, -, rfl⟩ := hcases
    · exact hinv
    · exact exec_inv hinv hx
    · exact hinv.recordOutcome (hfu.trans hf) nofun (errInfoLegal_illegal hd)
    · exact hinv.of_block_eq (writeRegister_cipher ..) (writeRegister_keyed ..) (writeRegister_fatal ..)
        (writeRegister_err ..) (writeRegister_errInfo ..) (writeRegister_mem ..)
    · exact hinv.of_block_eq rfl rfl rfl rfl rfl rfl
    · exact .hostReset hinv.mem_canonical
    · exact hinv.hostMemoryWrite a v

/-- Settles O46: the reset state is the one over the empty memory, which is canonical. -/
theorem resetMeetsInvariant : Obligations.ResetMeetsInvariant :=
  ⟨.resetOver Memory.wf_nil, fun _ => .resetOver⟩

end Sys2Proof.Machine
end

-- Proofs of the statements about KEYED, the outcome and STATUS (10_state.md sections 2 and 4), and about the events that change
-- nothing of the block or set it back (42_clear_and_host_access.md section 2, 70_reset_and_hazards.md section 1).
section
namespace Sys2Proof.Machine

/-! ### KEYED (10_state.md R12) -/

/-- An INIT that passes its tests: its next state. -/
theorem execInit_runs {s : State} (h : InitRuns s) :
    exec .init s =
      .next (done { s with cipher := Reference.scheduled s.mem (keyaddrOf s) (keylenOf s), keyed := true }) :=
  (exec_traffic_of_run (i := .init) (runInit_runs h)).1

/-- A command other than an INIT that runs and a CLEAR that is not ignored leaves `KEYED`. -/
theorem exec_keyed {i : Instr} {s t : State} (h : exec i s = .next t) (hinit : ¬ (i = .init ∧ InitRuns s))
    (hclear : ¬ (i = .clear ∧ s.fatal = false)) : t.keyed = s.keyed := by
  cases i with
  | init =>
    obtain ⟨-, rfl⟩ | ⟨-, -, rfl⟩ | ⟨-, -, -, rfl⟩ | ⟨hruns, -⟩ := execInit_next h
    case inr.inr.inr => exact absurd ⟨rfl, hruns⟩ hinit
    all_goals rfl
  | xform =>
    obtain ⟨-, rfl⟩ | ⟨-, -, rfl⟩ | ⟨-, -, -, rfl⟩ | ⟨-, -, -, -, rfl⟩ | ⟨-, x, -, rfl⟩ := execXform_next h <;> rfl
  | clear =>
    obtain ⟨-, rfl⟩ | ⟨hf, -⟩ := execClear_next h
    · rfl
    · exact absurd ⟨rfl, hf⟩ hclear

/-- Settles O10: the rise is `execInit_runs`, the falls `execClear_runs` and `step_reset`; every other command leaves `KEYED` by
`exec_keyed`, every other event by the lemma on its update. -/
theorem keyedFlagRisesAndFalls : Obligations.KeyedFlagRisesAndFalls := by
  intro s t e rest hin ht
  refine ⟨?init, ?clear, ?reset, ?kept⟩
  case init =>
    rintro rfl hruns
    have hu : InitRuns { s with inbox := rest } := hruns.of_regs rfl rfl
    rw [step_command (i := .init) hruns.notFaulted rfl hin, execInit_runs hu] at ht
    cases ht
    rfl
  case clear =>
    rintro rfl hf
    have hu : ({ s with inbox := rest } : State).fatal = false := hf
    rw [step_command (i := .clear) hf rfl hin, execClear_runs hu] at ht
    cases ht
    rfl
  case reset =>
    rintro rfl
    cases (step_reset hin).symm.trans ht
    rfl
  case kept =>
    intro hinit hclear hreset
    obtain ⟨u, rfl, ⟨r, v, -, -, rfl⟩ | ⟨w, i, rfl, hf, hd, hx⟩ | ⟨w, v, -, -, -, rfl⟩ | ⟨r, v, -, -, -, rfl⟩ |
      ⟨r, -, rfl⟩ | ⟨he, -⟩ | ⟨a, v, -, rfl⟩⟩ := step_next hin ht
    · rfl
    · obtain rfl := decode_eq_ok_iff.mp hd
      refine (exec_keyed hx ?_ ?_).trans rfl
      · rintro ⟨rfl, hruns⟩
        exact hinit ⟨rfl, hruns.of_regs rfl rfl⟩
      · rintro ⟨rfl, -⟩
        exact hclear ⟨rfl, hf⟩
    · rfl
    · exact writeRegister_keyed ..
    · rfl
    · exact absurd he hreset
    · rfl

/-! ### ERR and ERRINFO (10_state.md R14, R15) -/

/-- Settles O12: of the events of `step_next` only a write to CMD of a block that is not faulted, and a Reset, write the
outcome. -/
theorem outcomeKeptByOtherEvents : Obligations.OutcomeKeptByOtherEvents := by
  intro s t e rest hin ht hreset hother
  have hnot : ∀ w, e = .transaction (.write .cmd w) → s.fatal = false → False := by
    rintro w rfl hf
    obtain hcmd | hfatal := hother
    · exact hcmd w rfl
    · simp [hf] at hfatal
  obtain ⟨u, rfl, ⟨r, v, -, -, rfl⟩ | ⟨w, i, he, hf, -⟩ | ⟨w, v, he, hf, -⟩ | ⟨r, v, -, -, -, rfl⟩ |
    ⟨r, -, rfl⟩ | ⟨he, -⟩ | ⟨a, v, -, rfl⟩⟩ := step_next hin ht
  · exact ⟨rfl, rfl⟩
  · exact (hnot w he hf).elim
  · exact (hnot w he hf).elim
  · exact ⟨writeRegister_err .., writeRegister_errInfo ..⟩
  · exact ⟨rfl, rfl⟩
  · exact absurd he hreset
  · exact ⟨rfl, rfl⟩

/-! ### STATUS (10_state.md R23) -/

/-- `ERR` is bits 7:4 of STATUS. -/
theorem statusWord_err (s : State) : (statusWord s).extractLsb' 4 4 = s.err.code := by
  rw [statusWord, BitVec.extractLsb'_append_eq_of_add_le (by decide), BitVec.extractLsb'_append_eq_left]

/-- `KEYED` is bit 0 of STATUS. -/
theorem statusWord_getLsbD_zero (s : State) : (statusWord s).getLsbD 0 = s.keyed := by
  simp only [statusWord, BitVec.getLsbD_append]
  simp

/-- Bits 31:8 of STATUS read as 0. -/
theorem statusWord_high (s : State) : (statusWord s).extractLsb' 8 24 = 0 := by
  rw [statusWord, BitVec.extractLsb'_append_eq_left]

/-- Bits 3:2 of STATUS read as 0. -/
theorem statusWord_middle (s : State) : (statusWord s).extractLsb' 2 2 = 0 := by
  rw [statusWord, BitVec.extractLsb'_append_eq_of_add_le (by decide), BitVec.extractLsb'_append_eq_of_add_le (by decide),
    BitVec.extractLsb'_append_eq_left]

/-- The greatest error code is 5 (60_exceptions.md R111). -/
theorem ErrCode.code_le (e : ErrCode) : e.code.toNat ≤ 5 := by
  cases e <;> decide

/-- A write to STATUS or ERRINFO is ignored in every state (42_clear_and_host_access.md R103). -/
theorem step_write_readOnly {s : State} {r : Reg} {v : Word} {rest : List HostEvent} (hr : r = .status ∨ r = .errinfo)
    (hin : s.inbox = .transaction (.write r v) :: rest) : step s = .next { s with inbox := rest } := by
  obtain hf | hf := Bool.eq_false_or_eq_true s.fatal
  · exact step_write_faulted hin hf
  · obtain rfl | rfl := hr <;> exact step_writeRegister hf (by decide) hin

/-- Settles O14: each field is a lemma on `statusWord`, the ignored write `step_write_readOnly`, and the rest stands in the
invariant. -/
theorem statusFields : Obligations.StatusFields := by
  refine ⟨rfl, rfl, fun s => ⟨fun _ _ => step_write_readOnly (.inl rfl), statusWord_high s, statusWord_err s,
    statusWord_middle s, statusWord_getLsbD_one s, statusWord_getLsbD_zero s, statusWord_toNat s, s.err.code_le, ?_⟩⟩
  intro hinv hf
  obtain ⟨herr, hkeyed⟩ := hinv.fatal_overlap_keyed hf
  exact ⟨by rw [herr]; rfl, hkeyed⟩

/-- Settles O16, by `step_write_readOnly`. -/
theorem readOnlyWritesIgnored : Obligations.ReadOnlyWritesIgnored := by
  rintro s v rest (hin | hin)
  · exact step_write_readOnly (.inl rfl) hin
  · exact step_write_readOnly (.inr rfl) hin

/-! ### Waiting, Reset and CLEAR (60_exceptions.md section 2, 70_reset_and_hazards.md section 1) -/

/-- Settles O7, by `step_nil`. -/
theorem idleBlockWaits : Obligations.IdleBlockWaits := fun _ => step_nil

/-- Settles O19: `execClear_runs` zeroes what a Reset zeroes, but for `FATAL`, which is 0 already, and the operand registers. -/
theorem resetAndClearCompared : Obligations.ResetAndClearCompared := by
  refine fun s => ⟨fun hf => ?clear, fun hf => execClear_faulted hf, rfl, rfl, rfl, rfl, rfl, rfl⟩
  case clear =>
    rw [execClear_runs hf]
    simp only [done, recordOutcome, hostReset, State.reset, State.resetOver, hf]

end Sys2Proof.Machine
end

-- Proofs of the statements about the buffer memory (20_memory.md sections 1 and 2): the host's own write, and the two access
-- primitives.
section
namespace Sys2Proof.Machine

/-- Settles O20: the event is `hostMemoryWrite`, whose memory is `Memory.wf_setByte` and `Memory.byteAt_setByte`; a 32-bit
address always exists. -/
theorem hostMemoryWriteLands : Obligations.HostMemoryWriteLands := fun _ a v _ hin hwf =>
  ⟨_, step_cons hin, Memory.wf_setByte v a.isLt hwf, fun b => Memory.byteAt_setByte a.toNat v b hwf⟩

/-- A read at an address that does not exist is the port's fault (log entry 3). -/
theorem memRead_fault {a : Nat} (p : Port) (ha : Config.memorySize ≤ a) : memRead a p = .error (.noSuchAddress a) := by
  rw [memRead, if_neg (Nat.not_lt.mpr ha)]

/-- A write at an address that does not exist is the port's fault (log entry 3). -/
theorem memWrite_fault {a : Nat} (v : Byte) (p : Port) (ha : Config.memorySize ≤ a) :
    memWrite a v p = .error (.noSuchAddress a) := by
  rw [memWrite, if_neg (Nat.not_lt.mpr ha)]

/-- Settles O21: at an address that exists the primitives are `memRead_ok` and `memWrite_ok`, at any other they are the fault. -/
theorem memoryPortPrimitives : Obligations.MemoryPortPrimitives := fun p a v hwf =>
  ⟨fun ha => ⟨⟨_, memRead_ok p ha, rfl, rfl⟩,
    ⟨_, memWrite_ok v p ha, Memory.wf_setByte v ha hwf, fun b => Memory.byteAt_setByte a v b hwf, rfl⟩⟩,
   fun ha => ⟨memRead_fault p ha, memWrite_fault v p ha⟩⟩

end Sys2Proof.Machine
end

-- Proofs of the statements about INIT (40_key_schedule.md sections 1 and 2): the table it leaves, and what that table depends on.
section
namespace Sys2Proof.Machine

open Sys2Proof.Reference

/-- Settles O23: the next state is that of `execInit_runs`, whose table holds the functional schedule (`Table.entry_tableOf`). -/
theorem initSchedulesKey : Obligations.InitSchedulesKey := fun s h =>
  ⟨_, execInit_runs h, congrFun (Table.entry_tableOf _), rfl, rfl,
    scheduled_bijection s.mem (keyaddrOf s) (keylenOf s), rfl⟩

/-- Keys with the same byte in each of the 256 rounds leave the same Cipher State (40_key_schedule.md R70). -/
theorem scheduled_congr {m m' : Memory} {keyaddr keyaddr' k k' : Nat}
    (h : ∀ r, r < 256 → keyOf m keyaddr k r = keyOf m' keyaddr' k' r) : scheduled m keyaddr k = scheduled m' keyaddr' k' := by
  rw [scheduled, scheduled, schedule_congr h]

/-- Two keys of one length with the same bytes leave the same Cipher State, wherever they lie. -/
theorem scheduled_eq_of_key_bytes {m m' : Memory} {keyaddr keyaddr' k : Nat} (hk : 1 ≤ k)
    (h : ∀ n, n < k → m.byteAt (keyaddr + n) = m'.byteAt (keyaddr' + n)) : scheduled m keyaddr k = scheduled m' keyaddr' k :=
  scheduled_congr fun r _ => h (r % k) (Nat.mod_lt r hk)

/-- A key and its repetition `c` times have the same byte in each round, as `k` divides `c * k` (40_key_schedule.md R72). -/
theorem scheduled_eq_of_repeated_key {m m' : Memory} {keyaddr keyaddr' k c : Nat} (hk : 0 < c * k)
    (h : ∀ n, n < c * k → m'.byteAt (keyaddr' + n) = m.byteAt (keyaddr + n % k)) :
    scheduled m keyaddr k = scheduled m' keyaddr' (c * k) := by
  refine scheduled_congr fun r _ => ?_
  simp only [keyOf, h (r % (c * k)) (Nat.mod_lt r hk), Nat.mod_mul_left_mod]

/-- Settles O24: both are `execInit_runs`, and the Cipher States agree by `scheduled_eq_of_key_bytes`. -/
theorem initDependsOnKeyOnly : Obligations.InitDependsOnKeyOnly := by
  intro s s' h h' hlen hbytes
  refine ⟨_, _, execInit_runs h, execInit_runs h', ?cipher, ?keyed⟩
  case cipher =>
    simp only [done_cipher, ← hlen]
    exact scheduled_eq_of_key_bytes h.keyLegal.1 hbytes
  case keyed => simp only [done_keyed]

/-- Settles O25: both are `execInit_runs`, and the Cipher States agree by `scheduled_eq_of_repeated_key`. -/
theorem repeatedKeySchedulesAlike : Obligations.RepeatedKeySchedulesAlike := by
  intro s s' c h h' hlen hbytes
  refine ⟨_, _, execInit_runs h, execInit_runs h', ?_⟩
  simp only [done_cipher, hlen]
  exact scheduled_eq_of_repeated_key (hlen ▸ h'.keyLegal.1) (hlen ▸ hbytes)

end Sys2Proof.Machine
end

-- Proofs of the statements about what a command leaves unchanged (60_exceptions.md sections 1 and 2) and about the accesses it
-- makes (20_memory.md R39).
section
namespace Sys2Proof.Machine

open Sys2Proof.Reference

/-! ### What a command leaves unchanged -/

/-- A faulted block ignores every command, and none makes an access (log entry 6). -/
theorem runCommand_faulted (i : Instr) {s : State} (hf : s.fatal = true) : runCommand i s = .ok (s, []) := by
  cases i with
  | init => simp only [runCommand, runInit, hf, if_true]
  | xform => simp only [runCommand, runXform, hf, if_true]
  | clear => simp only [runCommand, runClear, hf, if_true]

theorem exec_faulted (i : Instr) {s : State} (hf : s.fatal = true) : exec i s = .next s :=
  (exec_traffic_of_run (runCommand_faulted i hf)).1

/-- No command writes what is the host's. -/
theorem exec_host {i : Instr} {s t : State} (h : exec i s = .next t) : t.inbox = s.inbox ∧ t.replies = s.replies := by
  cases i with
  | init => obtain ⟨-, rfl⟩ | ⟨-, -, rfl⟩ | ⟨-, -, -, rfl⟩ | ⟨-, rfl⟩ := execInit_next h <;> exact ⟨rfl, rfl⟩
  | xform =>
    obtain ⟨-, rfl⟩ | ⟨-, -, rfl⟩ | ⟨-, -, -, rfl⟩ | ⟨-, -, -, -, rfl⟩ | ⟨-, x, -, rfl⟩ := execXform_next h <;>
      exact ⟨rfl, rfl⟩
  | clear => obtain ⟨-, rfl⟩ | ⟨-, rfl⟩ := execClear_next h <;> exact ⟨rfl, rfl⟩

/-- No command but XFORM writes the memory. -/
theorem exec_mem {i : Instr} {s t : State} (h : exec i s = .next t) (hi : i ≠ .xform) : t.mem = s.mem := by
  cases i with
  | init => obtain ⟨-, rfl⟩ | ⟨-, -, rfl⟩ | ⟨-, -, -, rfl⟩ | ⟨-, rfl⟩ := execInit_next h <;> rfl
  | xform => exact absurd rfl hi
  | clear => obtain ⟨-, rfl⟩ | ⟨-, rfl⟩ := execClear_next h <;> rfl

/-- Only XFORM sets `FATAL`. -/
theorem exec_fatal_of_ne_xform {i : Instr} {s t : State} (h : exec i s = .next t) (hi : i ≠ .xform) :
    t.fatal = s.fatal := by
  obtain hsame | ⟨hx, -⟩ := exec_fatal h
  · exact hsame
  · exact absurd hx hi

/-- Settles O42: each clause is the lemma on that field. -/
theorem commandFrame : Obligations.CommandFrame := by
  intro i s t h
  refine ⟨exec_regs h, (exec_host h).1, (exec_host h).2, fun hi => ?other, fun hi => ?xform, fun hf => ?faulted⟩
  case other =>
    have hne : i ≠ .xform := by rintro rfl; simp at hi
    exact ⟨exec_fatal_of_ne_xform h hne, fun a => by rw [exec_mem h hne]⟩
  case xform => exact exec_keyed h (by simp [hi]) (by simp [hi])
  case faulted =>
    cases (exec_faulted i hf).symm.trans h
    rfl

/-- An XFORM whose tests do not pass leaves the Cipher State, `KEYED` and the memory (60_exceptions.md R113, R114). -/
theorem execXform_not_runs {s t : State} (h : exec .xform s = .next t) (hruns : ¬ XformRuns s) :
    t.mem = s.mem ∧ t.cipher = s.cipher ∧ t.keyed = s.keyed := by
  obtain ⟨-, rfl⟩ | ⟨-, -, rfl⟩ | ⟨-, -, -, rfl⟩ | ⟨-, -, -, -, rfl⟩ | ⟨hr, -⟩ := execXform_next h
  case inr.inr.inr.inr => exact absurd hr hruns
  all_goals exact ⟨rfl, rfl, rfl⟩

/-- Settles O43: an XFORM that runs is `runXform_runs`, any other `execXform_not_runs`. -/
theorem xformFrame : Obligations.XformFrame := by
  intro s t hwf h
  refine ⟨fun a hout => ?_, execXform_not_runs h⟩
  by_cases hruns : XformRuns s
  · obtain ⟨m, hrun, -, hmem⟩ := runXform_runs hruns hwf
    cases (exec_traffic_of_run (i := .xform) hrun).1.symm.trans h
    exact (hmem a).trans (if_neg hout)
  · rw [(execXform_not_runs h hruns).1]

/-- Settles O40: the table is the one before, or the one after the bytes of XFORM (`xformBytes_bijection`). -/
theorem xformKeepsBijection : Obligations.XformKeepsBijection := by
  intro s t hbij h
  obtain ⟨-, rfl⟩ | ⟨-, -, rfl⟩ | ⟨-, -, -, rfl⟩ | ⟨-, -, -, -, rfl⟩ | ⟨-, x, hx, rfl⟩ := execXform_next h
  case inr.inr.inr.inr => exact xformBytes_bijection hx hbij
  all_goals exact hbij

/-- Settles O44: of the three endings of `exec_ending` two record an error, a refusal and the fatal fault. -/
theorem errorChangesNothingElse : Obligations.ErrorChangesNothingElse := by
  intro i s t hf h herr
  obtain ⟨hok, -⟩ | ⟨e, info, -, hov, rfl⟩ | rfl := exec_ending hf h
  · exact absurd hok herr
  · exact ⟨rfl, by simp [hf, hov]⟩
  · exact ⟨rfl, by simp⟩

/-! ### The accesses of a command (20_memory.md R39) -/

/-- An INIT whose tests do not pass makes no access. -/
theorem traffic_init_not_runs {s : State} (h : ¬ InitRuns s) : traffic .init s = .ok [] := by
  obtain ⟨-, hrun⟩ | ⟨-, -, hrun⟩ | ⟨-, -, -, hrun⟩ | ⟨hruns, -⟩ := runInit_cases s
  case inr.inr.inr => exact absurd hruns h
  all_goals exact (exec_traffic_of_run (i := .init) hrun).2

/-- An XFORM whose tests do not pass makes no access. -/
theorem traffic_xform_not_runs {s : State} (h : ¬ XformRuns s) : traffic .xform s = .ok [] := by
  obtain ⟨-, hrun⟩ | ⟨-, -, hrun⟩ | ⟨-, -, -, hrun⟩ | ⟨-, -, -, -, hrun⟩ | ⟨hruns, -⟩ := runXform_cases s
  case inr.inr.inr.inr => exact absurd hruns h
  all_goals exact (exec_traffic_of_run (i := .xform) hrun).2

/-- The accesses of a completed XFORM over a canonical memory. -/
theorem traffic_xform_eq {s : State} (h : XformRuns s) (hwf : s.mem.wf = true) :
    traffic .xform s = .ok (xformTraffic s) := by
  obtain ⟨m, hrun, -⟩ := runXform_runs h hwf
  exact (exec_traffic_of_run (i := .xform) hrun).2

/-- A transaction other than a write of XFORM's word to CMD leaves the memory. -/
theorem step_transaction_mem {s t : State} {tr : HostTransaction} {rest : List HostEvent}
    (hin : s.inbox = .transaction tr :: rest) (hx : tr ≠ .write .cmd 2) (ht : step s = .next t) : t.mem = s.mem := by
  obtain ⟨u, rfl, ⟨r, v, -, -, rfl⟩ | ⟨w, i, he, -, hd, hexec⟩ | ⟨w, v, -, -, -, rfl⟩ | ⟨r, v, -, -, -, rfl⟩ |
    ⟨r, -, rfl⟩ | ⟨-, rfl⟩ | ⟨a, v, he, -⟩⟩ := step_next hin ht
  · rfl
  · cases he
    refine (exec_mem hexec ?_).trans rfl
    rintro rfl
    exact hx (by rw [decode_eq_xform_iff.mp hd])
  · rfl
  · exact writeRegister_mem ..
  · rfl
  · rfl
  · cases he

/-- Settles O34: the accesses of each command, in the cases where it runs and where it does not, and `step_transaction_mem`. -/
theorem commandTraffic : Obligations.CommandTraffic :=
  ⟨fun _ => traffic_init_runs, fun _ => traffic_xform_eq, fun _ => traffic_init_not_runs, fun _ => traffic_xform_not_runs,
    traffic_clear, fun _ _ _ _ => step_transaction_mem⟩

/-- Settles O31: of no bytes `xformBytes` is the identity, and of length 0 every buffer is in range and admitted. -/
theorem emptyTransformIsNoOp : Obligations.EmptyTransformIsNoOp := by
  intro s hf hk hlen
  have hs : inRange (srcOf s) 0 = true := inRange_eq_true.mpr s.regs.src.isLt.le
  have hd : inRange (dstOf s) 0 = true := inRange_eq_true.mpr s.regs.dst.isLt.le
  have ho : partialOverlap (srcOf s) (dstOf s) 0 = false := partialOverlap_of_len_le_one (Nat.zero_le 1)
  have hrun : runXform s = .ok (done s, []) := by
    simp [runXform, hf, hk, hlen, hs, hd, ho, xformBytes, portOf, done, recordOutcome]
  exact exec_traffic_of_run (i := .xform) hrun

end Sys2Proof.Machine
end

-- Proof of the statement that every step and every command completes (70_reset_and_hazards.md section 4, 20_memory.md section 5).
section
namespace Sys2Proof.Machine

/-- The address of an access. -/
def accessAddr : Access → Nat
  | .read a => a
  | .write a _ => a

/-- The accesses of a command are at addresses that exist, in every state (20_memory.md R31). -/
theorem traffic_exist (i : Instr) (s : State) : ∃ l, traffic i s = .ok l ∧ ∀ c ∈ l, accessAddr c < 2 ^ 32 := by
  cases i with
  | init =>
    by_cases h : InitRuns s
    · refine ⟨_, traffic_init_runs h, fun c hc => ?_⟩
      obtain ⟨m, hm, rfl⟩ := mem_initTraffic h.keyLegal.1 hc
      exact (Nat.add_lt_add_left hm _).trans_le h.keyInRange
    · exact ⟨_, traffic_init_not_runs h, nofun⟩
  | xform =>
    by_cases h : XformRuns s
    · obtain ⟨l, hl, hmem⟩ := traffic_xform_runs h
      refine ⟨l, hl, fun c hc => ?_⟩
      obtain ⟨n, hn, rfl | ⟨v, rfl⟩⟩ := hmem c hc
      · exact (Nat.add_lt_add_left hn _).trans_le h.srcInRange
      · exact (Nat.add_lt_add_left hn _).trans_le h.dstInRange
    · exact ⟨_, traffic_xform_not_runs h, nofun⟩
  | clear => exact ⟨_, traffic_clear s, nofun⟩

/-- A command with accesses has a next state: both are read off one run. -/
theorem exec_next_of_traffic {i : Instr} {s : State} {l : List Access} (h : traffic i s = .ok l) :
    ∃ t, exec i s = .next t := by
  cases hrun : runCommand i s with
  | ok r => exact ⟨r.1, (exec_traffic_of_run hrun).1⟩
  | error f => simp [traffic, hrun] at h

/-- Every command completes, in every state. -/
theorem exec_completes (i : Instr) (s : State) : ∃ t, exec i s = .next t := by
  obtain ⟨l, hl, -⟩ := traffic_exist i s
  exact exec_next_of_traffic hl

/-- Every write to CMD completes. -/
theorem commandWrite_completes (w : Word) (s : State) : ∃ t, commandWrite w s = .next t := by
  rw [commandWrite_eq]
  split_ifs
  · exact ⟨_, rfl⟩
  · exact exec_completes .init s
  · exact exec_completes .xform s
  · exact exec_completes .clear s
  · exact ⟨_, rfl⟩

/-- Every host event completes. -/
theorem perform_completes (e : HostEvent) (s : State) : ∃ t, perform e s = .next t := by
  rcases e with (⟨r, v⟩ | r | _) | ⟨a, v⟩
  · by_cases hr : r = .cmd
    · subst hr
      exact commandWrite_completes v s
    · exact ⟨_, hostWrite_register v s hr⟩
  · exact ⟨_, rfl⟩
  · exact ⟨_, rfl⟩
  · exact ⟨_, rfl⟩

theorem step_completes (s : State) : ∃ t, step s = .next t := by
  cases hin : s.inbox with
  | nil => exact ⟨s, step_nil hin⟩
  | cons e rest =>
    rw [step_cons hin]
    exact perform_completes e _

/-- Settles O47: a step completes by `step_completes`, a command by the accesses of `traffic_exist`. -/
theorem everyStepCompletes : Obligations.EveryStepCompletes := by
  refine ⟨step_completes, fun i s => ?_⟩
  obtain ⟨l, hl, hexist⟩ := traffic_exist i s
  obtain ⟨t, ht⟩ := exec_next_of_traffic hl
  exact ⟨t, l, ht, hl, fun _ ha => hexist _ ha, fun _ _ ha => hexist _ ha⟩

end Sys2Proof.Machine
end

-- Proof of the statement that no host transaction shows the Cipher State (60_exceptions.md section 7).
section
namespace Sys2Proof.Machine

/-- Two states that differ in the Cipher State and the memory only: the host's registers and replies are the same. -/
def AlikeToHost (t t' : State) : Prop := t' = { t with cipher := t'.cipher, mem := t'.mem }

/-- No register shows the Cipher State or the memory (42_clear_and_host_access.md R101). -/
theorem AlikeToHost.readRegister {t t' : State} (h : AlikeToHost t t') (r : Reg) :
    readRegister r t = readRegister r t' := by
  rw [h]
  cases r <;> rfl

/-- An XFORM that passes its tests changes the Cipher State and the memory and ends with `done()`, whatever the memory's form. -/
theorem execXform_done {s : State} (h : XformRuns s) :
    ∃ c m, exec .xform s = .next (done { s with cipher := c, mem := m }) := by
  obtain ⟨t, ht⟩ := exec_completes .xform s
  obtain ⟨hf, hk, hs, hd, ho⟩ := xformRuns_iff.mp h
  obtain ⟨hf', -⟩ | ⟨-, hk', -⟩ | ⟨-, -, hr, -⟩ | ⟨-, -, -, ho', -⟩ | ⟨-, x, -, rfl⟩ := execXform_next ht
  · simp [hf] at hf'
  · simp [hk] at hk'
  · exact absurd ⟨hs, hd⟩ hr
  · simp [ho] at ho'
  · exact ⟨_, _, ht⟩

/-- What INIT leaves for the host to see does not depend on the Cipher State: no test looks at it. -/
theorem execInit_alike {s t t' : State} {c : Cipher} (h : exec .init s = .next t)
    (h' : exec .init { s with cipher := c } = .next t') : AlikeToHost t t' := by
  obtain ⟨hf, rfl⟩ | ⟨hf, hk, rfl⟩ | ⟨hf, hk, hr, rfl⟩ | ⟨hruns, rfl⟩ := execInit_next h
  · cases (exec_faulted .init (s := { t with cipher := c }) hf).symm.trans h'
    rfl
  · have hout : keylenOf s < 1 ∨ 256 < keylenOf s := by omega
    cases (execInit_keysize (s := { s with cipher := c }) hf hout).symm.trans h'
    rfl
  · cases (execInit_range (s := { s with cipher := c }) hf hk (Nat.not_le.mp hr)).symm.trans h'
    rfl
  · cases (execInit_runs (s := { s with cipher := c }) (hruns.of_regs rfl rfl)).symm.trans h'
    rfl

/-- What XFORM leaves for the host to see does not depend on the Cipher State: no test looks at it. -/
theorem execXform_alike {s t t' : State} {c : Cipher} (h : exec .xform s = .next t)
    (h' : exec .xform { s with cipher := c } = .next t') : AlikeToHost t t' := by
  obtain ⟨hf, rfl⟩ | ⟨hf, hk, rfl⟩ | ⟨hf, hk, hr, rfl⟩ | ⟨hf, hk, ⟨hs, hd⟩, ho, rfl⟩ | ⟨hruns, x, -, rfl⟩ :=
    execXform_next h
  · cases (exec_faulted .xform (s := { t with cipher := c }) hf).symm.trans h'
    rfl
  · cases (execXform_notkeyed (s := { s with cipher := c }) hf hk).symm.trans h'
    rfl
  · have hout : 2 ^ 32 < srcOf s + lenOf s ∨ 2 ^ 32 < dstOf s + lenOf s := by omega
    cases (execXform_range (s := { s with cipher := c }) hf hk hout).symm.trans h'
    rfl
  · cases (execXform_overlap (s := { s with cipher := c }) hk hf hs hd ho).symm.trans h'
    rfl
  · obtain ⟨_, _, hdone⟩ := execXform_done (s := { s with cipher := c }) (hruns.of_regs rfl rfl rfl)
    cases hdone.symm.trans h'
    rfl

/-- What CLEAR leaves for the host to see does not depend on the Cipher State. -/
theorem execClear_alike {s t t' : State} {c : Cipher} (h : exec .clear s = .next t)
    (h' : exec .clear { s with cipher := c } = .next t') : AlikeToHost t t' := by
  obtain ⟨hf, rfl⟩ | ⟨hf, rfl⟩ := execClear_next h
  · cases (exec_faulted .clear (s := { t with cipher := c }) hf).symm.trans h'
    rfl
  · cases (execClear_runs (s := { s with cipher := c }) hf).symm.trans h'
    rfl

/-- What a write to CMD leaves for the host to see does not depend on the Cipher State. -/
theorem commandWrite_alike {w : Word} {s t t' : State} {c : Cipher} (hf : s.fatal = false)
    (h : commandWrite w s = .next t) (h' : commandWrite w { s with cipher := c } = .next t') : AlikeToHost t t' := by
  cases hd : decode w with
  | ok i =>
    rw [commandWrite_ok hf hd] at h
    rw [commandWrite_ok (s := { s with cipher := c }) hf hd] at h'
    cases i with
    | init => exact execInit_alike h h'
    | xform => exact execXform_alike h h'
    | clear => exact execClear_alike h h'
  | error bad =>
    obtain ⟨v⟩ := bad
    rw [commandWrite_illegal hf hd] at h
    rw [commandWrite_illegal (s := { s with cipher := c }) hf hd] at h'
    cases h
    cases h'
    rfl

/-- What a host write leaves for the host to see does not depend on the Cipher State. -/
theorem hostWrite_alike {r : Reg} {v : Word} {s t t' : State} {c : Cipher} (h : hostWrite r v s = .next t)
    (h' : hostWrite r v { s with cipher := c } = .next t') : AlikeToHost t t' := by
  cases hf : s.fatal with
  | true =>
    cases (hostWrite_faulted v hf).symm.trans h
    cases (hostWrite_faulted (s := { s with cipher := c }) v hf).symm.trans h'
    rfl
  | false =>
    by_cases hr : r = .cmd
    · subst hr
      exact commandWrite_alike hf h h'
    · cases (hostWrite_not_faulted v hf hr).symm.trans h
      cases (hostWrite_not_faulted (s := { s with cipher := c }) v hf hr).symm.trans h'
      cases r <;> rfl

/-- What an event leaves for the host to see does not depend on the Cipher State. -/
theorem perform_alike {e : HostEvent} {s t t' : State} {c : Cipher} (h : perform e s = .next t)
    (h' : perform e { s with cipher := c } = .next t') : AlikeToHost t t' := by
  rcases e with (⟨r, v⟩ | r | _) | ⟨a, v⟩
  · exact hostWrite_alike h h'
  · cases h
    cases h'
    cases r <;> rfl
  · cases h
    cases h'
    rfl
  · cases h
    cases h'
    rfl

/-- Settles O48: after one step from two Cipher States the block is `AlikeToHost`. -/
theorem cipherStateInvisible : Obligations.CipherStateInvisible := by
  intro s t t' c h h'
  have halike : AlikeToHost t t' := by
    cases hin : s.inbox with
    | nil =>
      cases (step_nil hin).symm.trans h
      cases (step_nil (s := { s with cipher := c }) hin).symm.trans h'
      rfl
    | cons e rest =>
      exact perform_alike ((step_cons hin).symm.trans h) ((step_cons (s := { s with cipher := c }) hin).symm.trans h')
  refine ⟨?_, ?_, halike.readRegister⟩ <;> rw [halike]

end Sys2Proof.Machine
end

-- Proof of the statement about the expansions of the pseudo-instructions (30_encoding.md R57).
section
namespace Sys2Proof.Machine

/-- A run whose first step answers a next state goes on from there. -/
theorem run_succ {s t : State} (n : Nat) (h : step s = .next t) :
    Sys2Proof.core.run (n + 1) s = Sys2Proof.core.run n t := by
  have hstep : Sys2Proof.core.step s = .next t := h
  simp only [Host.Core.run, hstep]

/-- A run of one step is that step. -/
theorem run_one (s : State) : Sys2Proof.core.run 1 s = step s := by
  obtain ⟨t, ht⟩ := step_completes s
  exact (run_succ 0 ht).trans ht.symm

/-- A run over a write to a register other than CMD, in a block that is not faulted. -/
theorem run_writeRegister (n : Nat) (s : State) (r : Reg) (v : Word) (rest : List HostEvent) (hf : s.fatal = false)
    (hr : r ≠ .cmd) :
    Sys2Proof.core.run (n + 1) { s with inbox := .transaction (.write r v) :: rest } =
      Sys2Proof.core.run n (writeRegister r v { s with inbox := rest }) :=
  run_succ n (step_writeRegister (s := { s with inbox := .transaction (.write r v) :: rest }) hf hr rfl)

/-- A run that ends with a write of a command's word to CMD, in a block that is not faulted. -/
theorem run_command (s : State) (i : Instr) (rest : List HostEvent) (hf : s.fatal = false) :
    Sys2Proof.core.run 1 { s with inbox := .transaction (.write .cmd (encode i)) :: rest } =
      exec i { s with inbox := rest } :=
  (run_one _).trans (step_command hf (decode_encode i) rfl)

/-- A run over any write, in a faulted block. -/
theorem run_write_faulted (n : Nat) (s : State) (r : Reg) (v : Word) (rest : List HostEvent) (hf : s.fatal = true) :
    Sys2Proof.core.run (n + 1) { s with inbox := .transaction (.write r v) :: rest } =
      Sys2Proof.core.run n { s with inbox := rest } :=
  run_succ n (step_write_faulted (s := { s with inbox := .transaction (.write r v) :: rest }) rfl hf)

/-- Settles O49: each line of an expansion is one step, the operand writes by `run_writeRegister`, the last by `run_command`;
in a faulted block each is `run_write_faulted`. -/
theorem pseudoInstructionsExpand : Obligations.PseudoInstructionsExpand := by
  refine ⟨fun s a k rest hf => ?init, fun s src dst len rest hf => ?xform, fun _ _ _ => ⟨rfl, rfl⟩, fun _ _ => rfl,
    fun s a k rest hf => ?faulted⟩
  case init =>
    refine (run_writeRegister 2 s .keyaddr a _ hf (by decide)).trans ?_
    refine (run_writeRegister 1 { s with regs := { s.regs with keyAddr := a } } .keylen k _ hf (by decide)).trans ?_
    exact run_command { s with regs := { s.regs with keyAddr := a, keyLen := k } } .init rest hf
  case xform =>
    refine (run_writeRegister 3 s .src src _ hf (by decide)).trans ?_
    refine (run_writeRegister 2 { s with regs := { s.regs with src := src } } .dst dst _ hf (by decide)).trans ?_
    refine (run_writeRegister 1 { s with regs := { s.regs with src := src, dst := dst } } .len len _ hf (by decide)).trans ?_
    exact run_command { s with regs := { s.regs with src := src, dst := dst, len := len } } .xform rest hf
  case faulted =>
    refine (run_write_faulted 2 s .keyaddr a _ hf).trans ?_
    refine (run_write_faulted 1 s .keylen k _ hf).trans ?_
    exact run_write_faulted 0 s .cmd (encode .init) rest hf

end Sys2Proof.Machine
end

-- Proofs of the statements about a completed XFORM (41_keystream.md): the bytes it leaves, and what follows from them for two
-- transforms and for a transform in chunks.
section
namespace Sys2Proof.Machine

open Sys2Proof.Reference

/-! ### The bytes of a transform (41_keystream.md R80) -/

/-- `m'` is `m` with `len` bytes from `dst` on replaced by those from `src` on in `m`, xor the keystream from `x` on. -/
def TransformedBytes (x : Rc4) (src dst len : Nat) (m m' : Memory) : Prop :=
  ∀ a, m'.byteAt a =
    if dst ≤ a ∧ a < dst + len then m.byteAt (src + (a - dst)) ^^^ keystream x (a - dst) else m.byteAt a

section TransformedBytes

variable {x : Rc4} {src dst len : Nat} {m m' m'' : Memory}

/-- Destination byte `n`. -/
theorem TransformedBytes.inside (h : TransformedBytes x src dst len m m') {n : Nat} (hn : n < len) :
    m'.byteAt (dst + n) = m.byteAt (src + n) ^^^ keystream x n := by
  rw [h, if_pos (by omega), Nat.add_sub_cancel_left]

/-- A byte outside the destination. -/
theorem TransformedBytes.outside (h : TransformedBytes x src dst len m m') {a : Nat}
    (ha : ¬ (dst ≤ a ∧ a < dst + len)) : m'.byteAt a = m.byteAt a := by
  rw [h, if_neg ha]

/-- Of no bytes the memory is as before, whatever the addresses. -/
theorem TransformedBytes.empty : TransformedBytes x src dst 0 m m := fun _ => by
  rw [if_neg (by omega)]

/-- What a transform leaves is one memory, in canonical form. -/
theorem TransformedBytes.unique (h : TransformedBytes x src dst len m m') (h' : TransformedBytes x src dst len m m'')
    (hwf : m'.wf = true) (hwf' : m''.wf = true) : m' = m'' :=
  Memory.ext_of_wf hwf hwf' fun a => (h a).trans (h' a).symm

/-- A transform and one of the bytes that follow, from the Cipher State it leaves, are one transform: the first does not write
what the second reads. -/
theorem TransformedBytes.append {c : Nat} (h : TransformedBytes x src dst c m m')
    (h' : TransformedBytes (advanceBy c x) (src + c) (dst + c) len m' m'')
    (hadm : c + len = 0 ∨ buffersAdmitted src dst (c + len)) : TransformedBytes x src dst (c + len) m m'' := by
  intro a
  unfold buffersAdmitted at hadm
  by_cases hsecond : dst + c ≤ a ∧ a < dst + c + len
  · obtain ⟨n, rfl⟩ := Nat.exists_eq_add_of_le hsecond.1
    rw [h'.inside (by omega), h.outside (by omega), keystream_advanceBy, if_pos (by omega)]
    congr 2 <;> omega
  · rw [h'.outside hsecond]
    by_cases hfirst : dst ≤ a ∧ a < dst + c
    · rw [h, if_pos hfirst, if_pos (by omega)]
    · rw [h.outside hfirst, if_neg (by omega)]

end TransformedBytes

/-! ### A transform as a command -/

/-- The state `t` is the one a completed XFORM of `len` bytes leaves after `s`. -/
structure Transformed (src dst len : Nat) (s t : State) : Prop where
  state_eq : t = { s with cipher := t.cipher, mem := t.mem, err := .ok, errInfo := 0 }
  view_cipher : view t.cipher = advanceBy len (view s.cipher)
  mem_wf : t.mem.wf = true
  bytes : TransformedBytes (view s.cipher) src dst len s.mem t.mem

section Transformed

variable {src dst len : Nat} {s s' t t' : State}

theorem Transformed.fatal (h : Transformed src dst len s t) : t.fatal = s.fatal := by rw [h.state_eq]

theorem Transformed.keyed (h : Transformed src dst len s t) : t.keyed = s.keyed := by rw [h.state_eq]

theorem Transformed.err (h : Transformed src dst len s t) : t.err = .ok := by rw [h.state_eq]

theorem Transformed.regs (h : Transformed src dst len s t) : t.regs = s.regs := by rw [h.state_eq]

/-- Two Cipher States with the same functional view are the same. -/
theorem cipher_eq_of_view_eq {c d : Cipher} (h : view c = view d) : c = d := by
  rw [← cipherOf_view c, h, cipherOf_view]

/-- The Cipher State after a transform depends on the one before and the length only (41_keystream.md R88). -/
theorem Transformed.cipher_eq {src' dst' : Nat} (h : Transformed src dst len s t) (h' : Transformed src' dst' len s' t')
    (hc : s.cipher = s'.cipher) : t.cipher = t'.cipher :=
  cipher_eq_of_view_eq (by rw [h.view_cipher, h'.view_cipher, hc])

/-- An XFORM that passes its tests completes. -/
theorem XformRuns.transformed (h : XformRuns s) (hwf : s.mem.wf = true) :
    ∃ t, exec .xform s = .next t ∧ Transformed (srcOf s) (dstOf s) (lenOf s) s t := by
  obtain ⟨m, hrun, hmwf, hmem⟩ := runXform_runs h hwf
  exact ⟨_, (exec_traffic_of_run (i := .xform) hrun).1, rfl, view_cipherOf _, hmwf, hmem⟩

/-- An XFORM on a state that a transform has left: the operands are as they were. -/
theorem Transformed.again (h : Transformed (srcOf s) (dstOf s) (lenOf s) s t) (hruns : XformRuns s) :
    ∃ u, exec .xform t = .next u ∧ Transformed (srcOf s) (dstOf s) (lenOf s) t u := by
  have := (hruns.of_regs h.fatal h.keyed h.regs).transformed h.mem_wf
  simpa only [srcOf, dstOf, lenOf, h.regs] using this

end Transformed

/-- Settles O29: an XFORM that passes its tests leaves `Transformed`. -/
theorem xformTransformsBuffer : Obligations.XformTransformsBuffer := by
  intro s h hwf
  obtain ⟨t, ht, htrans⟩ := h.transformed hwf
  exact ⟨t, ht, fun _ => htrans.bytes.inside, fun _ => htrans.bytes.outside, htrans.view_cipher, htrans.state_eq⟩

/-! ### Two transforms from one Cipher State (41_keystream.md section 4) -/

/-- A destination byte xor its source byte is the keystream byte. -/
theorem xor_xor_source (b key : Byte) : b ^^^ key ^^^ b = key := by
  rw [BitVec.xor_comm, ← BitVec.xor_assoc, BitVec.xor_self, BitVec.zero_xor]

/-- Settles O37: both are `Transformed` of one length from one Cipher State, and `xor_xor_source` leaves its keystream bytes. -/
theorem keystreamDataIndependent : Obligations.KeystreamDataIndependent := by
  intro s s' h h' hwf hwf' hc hlen
  obtain ⟨t, ht, htrans⟩ := h.transformed hwf
  obtain ⟨t', ht', htrans'⟩ := h'.transformed hwf'
  rw [← hlen] at htrans'
  refine ⟨t, t', ht, ht', htrans.cipher_eq htrans' hc, fun n hn => ?_⟩
  rw [htrans.bytes.inside hn, htrans'.bytes.inside hn, hc, xor_xor_source, xor_xor_source]

/-- Settles O38: both are `Transformed` of one length from one Cipher State and the same source bytes. -/
theorem inPlaceEqualsDisjoint : Obligations.InPlaceEqualsDisjoint := by
  intro s s' h h' hwf hwf' hc hlen hplace _ hbytes
  obtain ⟨t, ht, htrans⟩ := h.transformed hwf
  obtain ⟨t', ht', htrans'⟩ := h'.transformed hwf'
  rw [← hlen] at htrans'
  rw [← hplace] at htrans
  refine ⟨t, t', ht, ht', htrans.cipher_eq htrans' hc, fun n hn => ?_⟩
  rw [htrans.bytes.inside hn, htrans'.bytes.inside hn, hc, hbytes n hn]

/-! ### Encrypting and decrypting (41_keystream.md section 4) -/

/-- The conditions of INIT depend on `FATAL` and the two operand registers of the key only. -/
theorem InitRuns.of_key_regs {s t : State} (h : InitRuns s) (hf : t.fatal = s.fatal)
    (ha : t.regs.keyAddr = s.regs.keyAddr) (hl : t.regs.keyLen = s.regs.keyLen) : InitRuns t := by
  obtain ⟨hfatal, hlegal, hrange⟩ := h
  exact ⟨hf.trans hfatal, by simpa only [keylenOf, hl] using hlegal, by simpa only [keylenOf, keyaddrOf, ha, hl] using hrange⟩

/-- A key that does not meet the destination leaves the same Cipher State after the transform as before it. -/
theorem TransformedBytes.scheduled_eq {x : Rc4} {src dst len keyaddr k : Nat} {m m' : Memory}
    (h : TransformedBytes x src dst len m m') (hk : 1 ≤ k) (hdisj : keyaddr + k ≤ dst ∨ dst + len ≤ keyaddr) :
    scheduled m' keyaddr k = scheduled m keyaddr k :=
  scheduled_eq_of_key_bytes hk fun _ hn => h.outside (by omega)

/-- An INIT and then an XFORM, both of which pass their tests: the bytes are transformed with the keystream of the key. -/
theorem InitRuns.transformed {s : State} (hinit : InitRuns s) (hx : XformRuns { s with keyed := true })
    (hwf : s.mem.wf = true) :
    ∃ a t, exec .init s = .next a ∧ exec .xform a = .next t ∧ t.fatal = s.fatal ∧ t.regs = s.regs ∧ t.mem.wf = true ∧
      TransformedBytes (view (scheduled s.mem (keyaddrOf s) (keylenOf s))) (srcOf s) (dstOf s) (lenOf s) s.mem t.mem := by
  obtain ⟨t, ht, htrans⟩ := (hx.of_regs
    (t := done { s with cipher := scheduled s.mem (keyaddrOf s) (keylenOf s), keyed := true }) rfl rfl rfl).transformed hwf
  exact ⟨_, t, execInit_runs hinit, ht, htrans.fatal, htrans.regs, htrans.mem_wf, htrans.bytes⟩

/-- Settles O36: the first destination does not meet the key, so both INITs leave the same Cipher State
(`TransformedBytes.scheduled_eq`), and each byte is xored twice with the same keystream byte. -/
theorem transformIsItsOwnInverse : Obligations.TransformIsItsOwnInverse := by
  intro s dst2 hwf hinit henc hdec hkey
  obtain ⟨a, t, ha, ht, hf, hregs, htwf, hbytes⟩ := hinit.transformed henc hwf
  obtain ⟨b, u, hb, hu, -, -, -, hbytes'⟩ :=
    InitRuns.transformed (s := { t with regs := { t.regs with src := t.regs.dst, dst := dst2 } })
      (hinit.of_key_regs hf (by simp only [hregs]) (by simp only [hregs])) (hdec.of_regs hf rfl (by simp only [hregs])) htwf
  have hsame : TransformedBytes (view (scheduled s.mem (keyaddrOf s) (keylenOf s))) (dstOf s) dst2.toNat (lenOf s)
      t.mem u.mem := by
    rw [← hbytes.scheduled_eq hinit.keyLegal.1 hkey]
    simpa only [srcOf, dstOf, lenOf, keyaddrOf, keylenOf, hregs] using hbytes'
  refine ⟨a, t, b, u, ha, ht, hb, hu, fun n hn => ?_⟩
  rw [hsame.inside hn, hbytes.inside hn, BitVec.xor_assoc, BitVec.xor_self, BitVec.xor_zero]

/-! ### Transforms one after the other (41_keystream.md section 4, 70_reset_and_hazards.md section 3) -/

/-- Buffers that an XFORM of a keyed block takes: both in range, and admitted by the guard. -/
structure BuffersPass (src dst len : Nat) : Prop where
  len_lt : len < 2 ^ 32
  srcInRange : src + len ≤ 2 ^ 32
  dstInRange : dst + len ≤ 2 ^ 32
  admitted : len = 0 ∨ buffersAdmitted src dst len

theorem XformRuns.buffersPass {s : State} (h : XformRuns s) : BuffersPass (srcOf s) (dstOf s) (lenOf s) :=
  ⟨s.regs.len.isLt, h.srcInRange, h.dstInRange, h.admitted⟩

/-- The first bytes of buffers that pass. -/
theorem BuffersPass.first {src dst c n : Nat} (h : BuffersPass src dst (c + n)) : BuffersPass src dst c := by
  obtain ⟨hlen, hs, hd, hadm⟩ := h
  unfold buffersAdmitted at hadm
  exact ⟨by omega, by omega, by omega, by unfold buffersAdmitted; omega⟩

/-- The bytes that follow in buffers that pass. -/
theorem BuffersPass.rest {src dst c n : Nat} (h : BuffersPass src dst (c + n)) : BuffersPass (src + c) (dst + c) n := by
  obtain ⟨hlen, hs, hd, hadm⟩ := h
  unfold buffersAdmitted at hadm
  exact ⟨by omega, by omega, by omega, by unfold buffersAdmitted; omega⟩

/-- A keyed block that is not faulted and whose memory is in canonical form. -/
structure KeyedBlock (s : State) : Prop where
  notFaulted : s.fatal = false
  isKeyed : s.keyed = true
  mem_wf : s.mem.wf = true

/-- An XFORM whose operands the host has just written (41_keystream.md R86). The address after the last byte may be 2^32, which
no register holds; then the transform is empty. -/
theorem KeyedBlock.transformed {s : State} {src dst len : Nat} (h : KeyedBlock s) (hpass : BuffersPass src dst len) :
    ∃ t, exec .xform (withBuffers s src dst len) = .next t ∧ Transformed src dst len (withBuffers s src dst len) t := by
  obtain ⟨hf, hk, hwf⟩ := h
  obtain ⟨hlen, hs, hd, hadm⟩ := hpass
  have hlenOf : lenOf (withBuffers s src dst len) = len := Nat.mod_eq_of_lt hlen
  obtain rfl | hpos := Nat.eq_zero_or_pos len
  · exact ⟨_, (emptyTransformIsNoOp (withBuffers s src dst 0) hf hk hlenOf).1, rfl, rfl, hwf, .empty⟩
  · have hsrcOf : srcOf (withBuffers s src dst len) = src := Nat.mod_eq_of_lt (by omega)
    have hdstOf : dstOf (withBuffers s src dst len) = dst := Nat.mod_eq_of_lt (by omega)
    have hruns : XformRuns (withBuffers s src dst len) :=
      ⟨hf, hk, by rwa [hsrcOf, hlenOf], by rwa [hdstOf, hlenOf], by rwa [hsrcOf, hdstOf, hlenOf]⟩
    simpa only [hsrcOf, hdstOf, hlenOf] using hruns.transformed hwf

/-- A transform leaves a keyed block. -/
theorem Transformed.keyedBlock {src dst len : Nat} {s t : State} (h : Transformed src dst len s t) (hs : KeyedBlock s) :
    KeyedBlock t :=
  ⟨h.fatal.trans hs.notFaulted, h.keyed.trans hs.isKeyed, h.mem_wf⟩

/-- Chunks of buffers that pass all complete, and leave the Cipher State and the bytes of one transform of the whole. -/
theorem inChunks_transformed (chunks : List Nat) {src dst : Nat} {s : State} (hs : KeyedBlock s)
    (hpass : BuffersPass src dst chunks.sum) :
    ∃ u, inChunks chunks src dst s = .next u ∧ KeyedBlock u ∧ view u.cipher = advanceBy chunks.sum (view s.cipher) ∧
      TransformedBytes (view s.cipher) src dst chunks.sum s.mem u.mem ∧ (s.err = .ok ∨ chunks ≠ [] → u.err = .ok) := by
  induction chunks generalizing src dst s with
  | nil => exact ⟨s, rfl, hs, rfl, .empty, by simp⟩
  | cons c rest ih =>
    rw [List.sum_cons] at hpass ⊢
    obtain ⟨t, ht, htrans⟩ := hs.transformed hpass.first
    obtain ⟨u, hu, hblock, hview, hbytes, herr⟩ := ih (htrans.keyedBlock ⟨hs.notFaulted, hs.isKeyed, hs.mem_wf⟩) hpass.rest
    have hcipher : view t.cipher = advanceBy c (view s.cipher) := htrans.view_cipher
    rw [hcipher] at hview hbytes
    refine ⟨u, by simp only [inChunks, ht, hu], hblock, ?_, htrans.bytes.append hbytes hpass.admitted,
      fun _ => herr (.inl htrans.err)⟩
    rw [hview, ← advanceBy_add, Nat.add_comm]

/-- Settles O35: the chunks and the whole leave one functional Cipher State and the same bytes, in canonical form. -/
theorem streamingEquivalence : Obligations.StreamingEquivalence := by
  intro s chunks h hwf hsum
  obtain ⟨t, ht, htrans⟩ := h.transformed hwf
  obtain ⟨u, hu, hblock, hview, hbytes, herr⟩ :=
    inChunks_transformed chunks ⟨h.notFaulted, h.isKeyed, hwf⟩ (hsum.symm ▸ h.buffersPass)
  rw [hsum] at hview hbytes
  exact ⟨t, u, ht, hu, cipher_eq_of_view_eq (hview.trans htrans.view_cipher.symm),
    hbytes.unique htrans.bytes hblock.mem_wf htrans.mem_wf, hblock.notFaulted, fun hne => herr (.inr hne)⟩

/-- Settles O39: the same command again is `Transformed.again`, the one with advanced operands `KeyedBlock.transformed`; the
keystream from the Cipher State the first leaves is the one from `LEN` bytes further on (`keystream_advanceBy`). -/
theorem secondTransformContinuesKeystream : Obligations.SecondTransformContinuesKeystream := by
  intro s h hwf
  obtain ⟨t, ht, htrans⟩ := h.transformed hwf
  obtain ⟨u, hu, htrans'⟩ := htrans.again h
  have hkey : ∀ n, keystream (view t.cipher) n = keystream (view s.cipher) (lenOf s + n) := fun n => by
    rw [htrans.view_cipher, keystream_advanceBy]
  refine ⟨t, u, ht, hu, htrans.regs, htrans'.regs.trans htrans.regs, ?view, fun n hn => ?again,
    fun _ => htrans'.bytes.outside, fun hs hd => ?advanced⟩
  case view => rw [htrans'.view_cipher, htrans.view_cipher, ← advanceBy_add, Nat.two_mul]
  case again => rw [htrans'.bytes.inside hn, hkey]
  case advanced =>
    have hadm : lenOf s = 0 ∨ buffersAdmitted (srcOf s + lenOf s) (dstOf s + lenOf s) (lenOf s) := by
      have := h.admitted
      unfold buffersAdmitted at this ⊢
      omega
    have hpass : BuffersPass (srcOf s + lenOf s) (dstOf s + lenOf s) (lenOf s) :=
      ⟨s.regs.len.isLt, by omega, by omega, hadm⟩
    obtain ⟨v, hv, hvtrans⟩ := (htrans.keyedBlock ⟨h.notFaulted, h.isKeyed, hwf⟩).transformed hpass
    exact ⟨v, hv, fun n hn => (hvtrans.bytes.inside hn).trans (congrArg _ (hkey n))⟩

end Sys2Proof.Machine
end
